-- ==== Sys2Proof/Word.lean ====
section
/-! DEFINITION. The words of the engine (00_scope.md R6, R8): bytes, 24-bit flash addresses and identifiers, 32-bit
lengths and 3-bit operation codes. Every quantity is unsigned, bit 0 is the least significant bit. -/

namespace Sys2Proof

/-- A byte of the bus, 0x00..0xFF (R8). -/
abbrev Byte := BitVec 8

/-- A flash byte address: `ADDR_BITS = 24` (R6). -/
abbrev Addr := BitVec 24

/-- The chip identifier IDENTIFY answers with, 24 bits (R93). -/
abbrev Ident := BitVec 24

/-- A request's length field: `LEN_BITS = 32`, unsigned (R6). -/
abbrev Len := BitVec 32

/-- A request's operation field: `OP_BITS = 3` (R6). -/
abbrev OpField := BitVec 3

end Sys2Proof
end

