-- ==== Sys2Proof/Config.lean ====
section
/-! DEFINITION. What is fixed for the hardware and what the spec leaves to the outside world: the parameters of
00_scope.md R6, the vocabulary of the observable trace (R10) with the result and fault codes it carries
(60_exceptions.md R104, R106), and the one free value, the chip's answers (10_state.md R34). -/

namespace Sys2Proof

/-- The result codes of a completion response (R104). -/
inductive Result where
  | ok
  | notResponding
  deriving DecidableEq, Repr

/-- The numbers R104 gives the result codes. -/
def Result.number : Result → Nat
  | .ok => 0
  | .notResponding => 1

/-- The spec's model faults (R106). They are TAKEN by the acceptance step (R107): the machine goes on in the mode
FAULTED. None of them stops a step of the model. -/
inductive FaultCode where
  | illegalOp
  | busyRequest
  | dstTooSmall
  | srcTooShort
  deriving DecidableEq, Repr

/-- The numbers R106 gives the fault codes. -/
def FaultCode.number : FaultCode → Nat
  | .illegalOp => 1
  | .busyRequest => 2
  | .dstTooSmall => 3
  | .srcTooShort => 4

/-- The events of the observable trace (R10). -/
inductive Event where
  /-- `S`: chip select asserted, the line driven low. -/
  | sel
  /-- `E`: chip select de-asserted, the line driven high. -/
  | desel
  /-- `T(b)`: one byte transmitted to the chip. -/
  | tx (b : Byte)
  /-- `R(b)`: one byte received from the chip. -/
  | rx (b : Byte)
  /-- `DW(i, b)`: a byte written at offset `i` of the host destination buffer. -/
  | dw (i : Nat) (b : Byte)
  /-- `DONE(result, id)`: the completion response; `id` is `none` where the spec writes a dash. -/
  | done (r : Result) (id : Option Ident)
  /-- `FAULT(code)`: a model fault was recorded. -/
  | fault (c : FaultCode)
  /-- `RESET`: the reset input was applied. -/
  | reset
  deriving DecidableEq, Repr

namespace Config

/-- `PP_MAX`: the largest page-program payload (R6). -/
def ppMax : Nat := 256

/-- `PAGE_BYTES` (R6). -/
def pageBytes : Nat := 256

/-- `SECTOR_BYTES` (R6). -/
def sectorBytes : Nat := 4096

/-- `CHIP_BYTES` = 0x400000, 32 Mbit (R6; the spec derives it with 1 Mbit = 2^20 bits). -/
def chipBytes : Nat := 0x400000

/-- `BUSY_BIT`: the status bit the busy-poll tests (R6). -/
def busyBit : Nat := 0

/-- `POLL_LIMIT`'s default, `UNBOUNDED` (R3, R6). -/
def pollLimitDefault : Option Nat := none

/-- FREE VALUE: `ChipByte()`, the byte the chip drives when no answer is lined up in the state, as a function of the
whole trace so far (R34: "a free draw of any byte", "The draw may depend on the whole trace so far"). It has no body
that a proof can see; what is proved holds for every choice of it (log 5). -/
opaque chipByte : List Event → Byte

end Config

end Sys2Proof
end

