-- ==== Sys2Proof/Syntax.lean ====
section
/-! DEFINITION. The syntax: the request record of 10_state.md R17 and the instructions, one constructor per row of
spec/opcode_table.json: seven wire frames (30_encoding.md R59) and eight request codes (R61, R62). -/

namespace Sys2Proof

/-- The fields of a request beside its operation code (R17; `dstBase` from R37). An operation ignores the fields it does not use (R63);
they are carried, because acceptance latches the whole record (R105). -/
structure Fields where
  /-- 24-bit flash address. -/
  addr : Addr := 0
  /-- length, unsigned 32 bits. -/
  len : Len := 0
  /-- the page-program payload, captured by value at acceptance (R38). -/
  src : List Byte := []
  /-- size in bytes of the host destination buffer. -/
  dstCap : Nat := 0
  /-- where the host destination buffer begins in the host's memory: the `dst` of `MemWrite(dst + i, 1, v)` (20_memory.md
  R37; log 8). -/
  dstBase : Nat := 0
  deriving DecidableEq, Repr

/-- The request record the host presents (R17, R28). -/
structure Request extends Fields where
  /-- the 3-bit operation code (R61). -/
  op : OpField
  deriving DecidableEq, Repr

/-- The instructions. A wire constructor is a command frame the engine puts on the bus: its operand is what the frame's
command part carries (R55, R56); the data phase is given by the request in progress (R58). A request constructor is a
request the host presents. -/
inductive Instr where
  /-- READ_ID, 0x9F, F-OP, data in (3 bytes). -/
  | readId
  /-- READ_DATA, 0x03, F-OPA, data in (`n` bytes). -/
  | readData (addr : Addr)
  /-- PAGE_PROGRAM, 0x02, F-OPA, data out (`n` bytes). -/
  | pageProgram (addr : Addr)
  /-- SECTOR_ERASE, 0x20, F-OPA, no data phase. -/
  | sectorErase (addr : Addr)
  /-- CHIP_ERASE, 0xC7, F-OP, no data phase. -/
  | chipErase
  /-- WRITE_ENABLE, 0x06, F-OP, no data phase. -/
  | writeEnable
  /-- READ_STATUS_1, 0x05, F-OP, data in (1 byte). -/
  | readStatus1
  /-- REQ_IDENTIFY, `op = 0b000`. -/
  | reqIdentify (f : Fields)
  /-- REQ_READ, `op = 0b001`. -/
  | reqRead (f : Fields)
  /-- REQ_PAGE_PROGRAM, `op = 0b010`. -/
  | reqPageProgram (f : Fields)
  /-- REQ_SECTOR_ERASE, `op = 0b011`. -/
  | reqSectorErase (f : Fields)
  /-- REQ_CHIP_ERASE, `op = 0b100`. -/
  | reqChipErase (f : Fields)
  /-- REQ_RESERVED_5, `op = 0b101` (R62). -/
  | reqReserved5 (f : Fields)
  /-- REQ_RESERVED_6, `op = 0b110` (R62). -/
  | reqReserved6 (f : Fields)
  /-- REQ_RESERVED_7, `op = 0b111` (R62). -/
  | reqReserved7 (f : Fields)
  deriving DecidableEq, Repr

/-- How an instruction is encoded: a wire row as the bytes of a frame, first byte first on the wire (R54), a request
row as the request record with its 3-bit code (R61). The two spaces never meet: the table's "space" column. -/
inductive Encoding where
  | wire (bytes : List Byte)
  | request (r : Request)
  deriving DecidableEq, Repr

end Sys2Proof
end

