-- ==== Sys2Proof/Decode.lean ====
section
/-! DEFINITION. The encodings (30_encoding.md): the opcode map (R59), the address framer (R57), the decoder of a frame's
command part (R55, R56, R60), the decoder of the request code (R61, R62), the encoder beside them, the trace checker's
decoder of a whole bracket (R60), and the reading of a word of spec/opcode_table.json. Decoding is total and rejects by
name. -/

namespace Sys2Proof

/-! ### The opcode map, R59 -/

def opReadId : Byte := 0x9F
def opReadData : Byte := 0x03
def opPageProgram : Byte := 0x02
def opSectorErase : Byte := 0x20
def opChipErase : Byte := 0xC7
def opWriteEnable : Byte := 0x06
def opReadStatus1 : Byte := 0x05

/-! ### The address framer, R57 -/

/-- `addr_bytes(a) = [a[23:16], a[15:8], a[7:0]]` (R57). -/
def addrBytes (a : Addr) : List Byte :=
  [a.extractLsb' 16 8, a.extractLsb' 8 8, a.extractLsb' 0 8]

/-- Three bytes, most significant first, as one 24-bit value: `(x << 16) | (y << 8) | z` (R8, R41). -/
def joinBytes (x y z : Byte) : Addr := (x.zeroExtend 24 <<< 16) ||| (y.zeroExtend 24 <<< 8) ||| z.zeroExtend 24

/-! ### Frames -/

/-- Why a byte sequence is no frame of the engine. -/
inductive DecodeError where
  /-- the frame has no byte: it ends before its opcode (R54). -/
  | noOpcode
  /-- the first byte is none of the seven opcodes (R60, R64). -/
  | unknownOpcode (b : Byte)
  /-- an F-OPA frame ends before its third address byte (R56). -/
  | addressCut (opcode : Byte)
  deriving DecidableEq, Repr

/-- The address bytes of an F-OPA frame (R56): the instruction and the bytes after the command part. -/
def decodeAddress (mk : Addr → Instr) (opcode : Byte) : List Byte → Except DecodeError (Instr × List Byte)
  | a2 :: a1 :: a0 :: rest => .ok (mk (joinBytes a2 a1 a0), rest)
  | _ => .error (.addressCut opcode)

/-- The command part of a frame, from its transmitted bytes: F-OP or F-OPA by the opcode (R55, R56, R59, R60). The
second component is what the frame transmits after the command part. -/
def decodeFrame : List Byte → Except DecodeError (Instr × List Byte)
  | [] => .error .noOpcode
  | b :: rest =>
    if b = opReadId then .ok (.readId, rest)
    else if b = opReadData then decodeAddress .readData b rest
    else if b = opPageProgram then decodeAddress .pageProgram b rest
    else if b = opSectorErase then decodeAddress .sectorErase b rest
    else if b = opChipErase then .ok (.chipErase, rest)
    else if b = opWriteEnable then .ok (.writeEnable, rest)
    else if b = opReadStatus1 then .ok (.readStatus1, rest)
    else .error (.unknownOpcode b)

/-- The request code (R61, R62): total on the 3 bits. -/
def decodeRequest (r : Request) : Instr :=
  if r.op = 0 then .reqIdentify r.toFields
  else if r.op = 1 then .reqRead r.toFields
  else if r.op = 2 then .reqPageProgram r.toFields
  else if r.op = 3 then .reqSectorErase r.toFields
  else if r.op = 4 then .reqChipErase r.toFields
  else if r.op = 5 then .reqReserved5 r.toFields
  else if r.op = 6 then .reqReserved6 r.toFields
  else .reqReserved7 r.toFields

/-- The decoder of both spaces: the instruction and the wire bytes after its command part. -/
def decode : Encoding → Except DecodeError (Instr × List Byte)
  | .wire bytes => decodeFrame bytes
  | .request r => .ok (decodeRequest r, [])

/-! ### The encoder -/

/-- A request with the operation code `op` and the fields `f`. -/
def requestOf (op : OpField) (f : Fields) : Request := { toFields := f, op := op }

/-- The encoding of an instruction: command part (R55, R56) or request (R61). -/
def encode : Instr → Encoding
  | .readId => .wire [opReadId]
  | .readData a => .wire (opReadData :: addrBytes a)
  | .pageProgram a => .wire (opPageProgram :: addrBytes a)
  | .sectorErase a => .wire (opSectorErase :: addrBytes a)
  | .chipErase => .wire [opChipErase]
  | .writeEnable => .wire [opWriteEnable]
  | .readStatus1 => .wire [opReadStatus1]
  | .reqIdentify f => .request (requestOf 0 f)
  | .reqRead f => .request (requestOf 1 f)
  | .reqPageProgram f => .request (requestOf 2 f)
  | .reqSectorErase f => .request (requestOf 3 f)
  | .reqChipErase f => .request (requestOf 4 f)
  | .reqReserved5 f => .request (requestOf 5 f)
  | .reqReserved6 f => .request (requestOf 6 f)
  | .reqReserved7 f => .request (requestOf 7 f)

/-- The command part of a wire instruction; a request puts no byte of its own on the wire (R105). -/
def commandBytes (i : Instr) : List Byte :=
  match encode i with
  | .wire bytes => bytes
  | .request _ => []

/-! ### A whole bracket, as a trace checker reads it (R60) -/

/-- Is the event a received byte? -/
def isRx : Event → Bool
  | .rx _ => true
  | .sel | .desel | .tx _ | .dw _ _ | .done _ _ | .fault _ | .reset => false

/-- Is the event a transmitted byte? -/
def isTx : Event → Bool
  | .tx _ => true
  | .sel | .desel | .rx _ | .dw _ _ | .done _ _ | .fault _ | .reset => false

/-- The leading transmitted bytes of a list of events. -/
def leadingTx : List Event → List Byte
  | .tx b :: es => b :: leadingTx es
  | _ => []

/-- The data phase R60 gives a frame, in bus events alone (log 22): exactly 3 `R` for 0x9F, exactly 1 `R` for 0x05, none for 0x06, 0xC7 and 0x20,
`R` events up to the bracket's `E` for 0x03 and `T` events up to it for 0x02. -/
def dataPhaseFits : Instr → List Event → Bool
  | .readId, es => es.length == 3 && es.all isRx
  | .readStatus1, es => es.length == 1 && es.all isRx
  | .readData _, es => es.all isRx
  | .pageProgram _, es => es.all isTx
  | .writeEnable, es | .chipErase, es | .sectorErase _, es => es.isEmpty
  | .reqIdentify _, _ | .reqRead _, _ | .reqPageProgram _, _ | .reqSectorErase _, _ | .reqChipErase _, _ => false
  | .reqReserved5 _, _ | .reqReserved6 _, _ | .reqReserved7 _, _ => false

/-- R60: a bracket `S e1 ... ek E`, decoded into its frame and the events of its data phase. DESIGN CHOICE (log 22): `e1 ... ek`
are bus events. R60 does not say whether the `DW` events that stand inside a READ's bracket in the trace (R10, R94) count among
them; here they do not, so a trace is filtered to its bus events first, and a bracket that still holds a `DW` decodes to
`none`. -/
def decodeBracket : List Event → Option (Instr × List Event)
  | .sel :: es =>
    if es.getLast? = some .desel then
      match decodeFrame (leadingTx es) with
      | .ok (i, _) =>
        let data := es.dropLast.drop (commandBytes i).length
        if dataPhaseFits i data then some (i, data) else none
      | .error _ => none
    else none
  | _ => none

/-! ### The words of spec/opcode_table.json -/

/-- The `k` lowest bytes of a table word, the least significant (the first on the wire) first. -/
def tableBytes : Nat → Nat → List Byte
  | 0, _ => []
  | k + 1, w => BitVec.ofNat 8 w :: tableBytes k (w / 256)

/-- A table word of the wire space: at least four bytes, the longest command part (R56). -/
def wireOfTable (nbits w : Nat) : Option Instr :=
  match decodeFrame (tableBytes (max 4 ((nbits + 7) / 8)) w) with
  | .ok (i, _) => some i
  | .error _ => none

/-- A table word of the request space, all other fields of the request at 0 or empty (R65). -/
def requestOfTable (w : Nat) : Option Instr :=
  if w < 8 then some (decodeRequest (requestOf (BitVec.ofNat 3 w) {})) else none

/-- The instruction a word of the opcode table stands for. The table numbers two spaces from bit 0 (its "space"
column), and this function is not told the space: fewer than 8 bits are a request code; 8 bits are a request code
below 8, but for 0x05 and 0x06, which are one-byte frames of the engine while the codes 5 and 6 are reserved; every
other word is a frame (log 3). The machine itself never meets this choice: it fetches a frame from the bracket in
progress and a request from the request port. -/
def decodeTableWord (nbits w : Nat) : Option Instr :=
  if nbits < 8 then requestOfTable w
  else if nbits = 8 ∧ w < 8 ∧ w ≠ 5 ∧ w ≠ 6 then requestOfTable w
  else wireOfTable nbits w

end Sys2Proof
end

