-- ==== Sys2Proof/Machine/State.lean ====
section
/-! DEFINITION. The state of the machine as plain data: the engine's fields (10_state.md R14, all of them), the record
of a fault (60_exceptions.md R106), what the spec lets be observed (the trace, 00_scope.md R10, and the host destination
buffers, 20_memory.md R37), and the outside world's coming moves and answers. The power-on state is
70_reset_and_hazards.md R122's. -/

namespace Sys2Proof.Machine

/-- The micro-ops, exactly the vocabulary of R20. -/
inductive MicroOp where
  /-- assert chip select (R75). -/
  | csa
  /-- de-assert chip select (R76). -/
  | csd
  /-- transmit one byte (R77). -/
  | tx (b : Byte)
  /-- receive identifier byte `k` (R78). -/
  | rxi (k : Fin 3)
  /-- receive the byte of destination offset `i` (R78). -/
  | rxd (i : Nat)
  /-- the busy-poll, one phase per step (R86). -/
  | poll
  /-- complete the request (R79). -/
  | ret
  deriving DecidableEq, Repr

/-- The sequencer's mode (R16). -/
inductive Mode where
  | idle
  | run
  | faulted
  deriving DecidableEq, Repr

/-- The position inside one poll iteration (R23). -/
inductive PollPhase where
  | pCsa
  | pTx
  | pRx
  | pCsd
  deriving DecidableEq, Repr

/-- The three bytes of `id_buf` (R21). -/
structure IdBuf where
  b0 : Byte
  b1 : Byte
  b2 : Byte
  deriving DecidableEq, Repr

/-- Does the transport complete the exchanges the engine starts (R67), or does the engine wait (R82)? -/
inductive Transport where
  | live
  | stalled
  deriving DecidableEq, Repr

/-- One move of the outside world, or a turn left to the engine (R7, R113; log 1). -/
inductive Turn where
  /-- the engine takes its step (R80). -/
  | engine
  /-- the host presents the request now, whatever the mode (R105). -/
  | request (r : Request)
  /-- the host keeps HZ1 (R126): it presents the request once `ready = 1`, and the engine runs until then (R131). -/
  | await (r : Request)
  /-- the host applies the reset input (R121). -/
  | reset
  /-- the transport stops completing exchanges (R82). -/
  | stall
  /-- the transport completes exchanges again (R67). -/
  | resume
  deriving DecidableEq, Repr

/-- The host's memory as far as destination buffers reach it: (address, byte) pairs, addresses strictly rising. An address
that is not listed has no value the model knows (log 8). -/
abbrev Memory := List Host.Cell

/-- Why a step stops. No rule of the spec stops the engine: each reason is for a state or a use that the spec excludes,
and stopping there is safe. -/
inductive Fault where
  /-- `script[ip]` does not exist while `mode = RUN`; R19: "`ip` never exceeds `length(script) - 1` while `mode = RUN`".
  Raised by the engine step. Safe. -/
  | ipOutsideScript
  /-- RXD(i) with `i` at or past the end of the destination buffer; R37: "no write leaves the buffer". Raised by the
  micro-op RXD. Safe. -/
  | outsideDestination (i : Nat)
  /-- A wire frame was asked for that is not the frame in progress; R29: frames are not selectable, the engine emits
  them only inside the script of a request. Raised by the meanings of the seven wire rows. Safe. -/
  | frameNotInProgress
  deriving DecidableEq, Repr

/-- Why a step has no meaning in the model. -/
inductive Refusal where
  /-- the instruction has no meaning yet. Raised by an arm of `exec` only. Safe. -/
  | notModelled (mnemonic : String)
  deriving DecidableEq, Repr

/-- The state. -/
structure State where
  /-- chip-select level: `false` = 0 = asserted, `true` = 1 = de-asserted (R15). -/
  csN : Bool
  /-- the sequencer's mode (R16). -/
  mode : Mode
  /-- the accepted request (R17). -/
  req : Option Request
  /-- effective data-phase length (R18). -/
  n : Nat
  /-- the accepted request's micro-ops (R20). -/
  script : List MicroOp
  /-- sequencer index, the program-counter analog (R19). -/
  ip : Nat
  /-- bytes received by IDENTIFY (R21). -/
  idBuf : IdBuf
  /-- last status byte received by a poll (R22). -/
  st : Byte
  /-- position inside one poll iteration (R23). -/
  pollPhase : PollPhase
  /-- poll iterations completed in the current POLL micro-op (R23). -/
  pollCount : Nat
  /-- the sticky fault record (R25). -/
  fault : Option FaultCode
  /-- the request recorded with the fault (R106, column "recorded"; log 9). -/
  faultReq : Option Request
  /-- `ip` of the request in progress, recorded with BUSY_REQUEST (R106, column "recorded"; log 9). -/
  faultIp : Option Nat
  /-- the bytes of the host destination buffers, each buffer at its request's `dstBase` (R37; log 8). -/
  dst : Memory
  /-- the events so far, oldest first (R10). -/
  trace : List Event
  /-- `POLL_LIMIT`: `none` is UNBOUNDED (R6, R89; log 7). No step writes it. -/
  pollLimit : Option Nat
  /-- answers the chip is lined up to give, next first (R34; log 5). -/
  chip : List Byte
  /-- the transport (R67, R82; log 6). -/
  transport : Transport
  /-- the outside world's coming moves, next first (R113; log 1). -/
  agenda : List Turn
  deriving DecidableEq, Repr

/-- The power-on state (R122, last column): IDLE, select de-asserted, no request, no fault. Nothing is lined up for the
chip or the host, nothing has been observed, the transport is live (log 15). -/
def State.reset : State where
  csN := true
  mode := .idle
  req := none
  n := 0
  script := []
  ip := 0
  idBuf := ⟨0, 0, 0⟩
  st := 0
  pollPhase := .pCsa
  pollCount := 0
  fault := none
  faultReq := none
  faultIp := none
  dst := []
  trace := []
  pollLimit := Config.pollLimitDefault
  chip := []
  transport := .live
  agenda := []

end Sys2Proof.Machine
end

