-- ==== Sys2Proof/Machine/Ops.lean ====
section
/-! DEFINITION. The named operations over the state, each written once: the trace (00_scope.md R9, R10), the chip-select
line (10_state.md R15), the sequencer index (R19), one byte from the chip (R34, 40_bus_and_select.md R67), the host
destination buffers (20_memory.md R37), completion (R31, R26), fault entry (60_exceptions.md R107), acceptance (R105) and
the reset input (70_reset_and_hazards.md R121). -/

namespace Sys2Proof.Machine

/-- What a step or a meaning answers. -/
abbrev Answer := Host.Outcome State Fault Refusal

/-! ### Trace, select line, sequencer index -/

/-- `Emit(ev)` (R9). -/
def emit (e : Event) (s : State) : State := { s with trace := s.trace ++ [e] }

/-- A write of the select line: `S` for 1 to 0, `E` for 0 to 1, no event when the level does not change (R15; log 10). -/
def driveCs (level : Bool) (s : State) : State :=
  if s.csN = level then s
  else emit (if level then .desel else .sel) { s with csN := level }

/-- `s.ip <- s.ip + 1` (R19). -/
def advance (s : State) : State := { s with ip := s.ip + 1 }

/-! ### One byte-time of the bus -/

/-- An exchange is taken only when the transport completes it (R67); otherwise the engine stays as it is, with no event
and no fault (R82). -/
def exchange (f : State → Answer) (s : State) : Answer :=
  match s.transport with
  | .live => f s
  | .stalled => .next s

/-- `ChipByte()` (R34): the next lined-up answer, or the free value of the trace so far. -/
def chipByte (s : State) : Byte :=
  match s.chip with
  | v :: _ => v
  | [] => Config.chipByte s.trace

/-- `v <- Transport.rx(); Emit(R(v))` (R78, R86): the answer is taken from the chip and put on the trace. -/
def receive (s : State) : State := emit (.rx (chipByte s)) { s with chip := s.chip.tail }

/-- `Transport.tx(b); Emit(T(b))` (R77, R86); the byte received meanwhile is discarded (R74). -/
def transmit (b : Byte) (s : State) : State := emit (.tx b) s

/-! ### The host destination buffers -/

/-- The canonical form: addresses strictly rising, so equal memories are equal lists. -/
def Memory.wf (m : Memory) : Bool := decide (m.Pairwise fun x y => x.1 < y.1)

/-- The byte at an address; `none` where nothing has been written (log 8). -/
def memRead : Memory → Nat → Option Byte
  | [], _ => none
  | (a, v) :: m, i => if a = i then some v else memRead m i

/-- Write one byte, keeping the addresses rising. -/
def memWrite : Memory → Nat → Byte → Memory
  | [], i, v => [(i, v)]
  | (a, w) :: m, i, v =>
    if i < a then (i, v) :: (a, w) :: m
    else if i = a then (i, v) :: m
    else (a, w) :: memWrite m i v

/-- `dst + i` (R37): where offset `i` of the destination buffer of the request in progress lies (log 8). -/
def dstAddr (s : State) (i : Nat) : Nat :=
  match s.req with
  | some r => r.dstBase + i
  | none => i

/-- `MemWrite(dst + i, 1, v)`: the byte is stored and `DW(i, v)` emitted (R37). -/
def writeDst (i : Nat) (v : Byte) (s : State) : State :=
  emit (.dw i v) { s with dst := memWrite s.dst (dstAddr s i) v }

/-- The size of the destination buffer of the request in progress (R17, R36). -/
def dstCap (s : State) : Nat :=
  match s.req with
  | some r => r.dstCap
  | none => 0

/-- `s.id_buf[k] <- v` (R21). -/
def IdBuf.put (k : Fin 3) (v : Byte) (b : IdBuf) : IdBuf :=
  match k with
  | 0 => { b with b0 := v }
  | 1 => { b with b1 := v }
  | 2 => { b with b2 := v }

/-! ### Completion -/

/-- Every field other than `cs_n` and `fault` back to its reset value (R26, R79, R89, R121, R122). The record R106 keeps
with the fault stays with it (log 9). -/
def clearRequest (s : State) : State :=
  { s with
    mode := .idle, req := none, n := 0, script := [], ip := 0, idBuf := ⟨0, 0, 0⟩, st := 0
    pollPhase := .pCsa, pollCount := 0 }

/-- `Respond(result, id)` (R9, R31) and the end of the request (R79, R89). -/
def complete (r : Result) (id : Option Ident) (s : State) : State := clearRequest (emit (.done r id) s)

/-! ### Fault entry, acceptance, reset -/

/-- `raise Fault(code)` (R107) for the presented request `r`: release select, `FAULT(code)`, the sticky record, FAULTED.
R106 records the request and, with a request in progress, its `ip`. No other field changes. There is no return from it but
the reset input (R109). -/
def raiseFault (c : FaultCode) (r : Request) (s : State) : State :=
  { emit (.fault c) (driveCs true s) with
    fault := some c, mode := .faulted, faultReq := some r
    faultIp := if s.mode = .run then some s.ip else none }

/-- The last branch of R105: the request is latched and its script starts. -/
def latch (r : Request) (n : Nat) (script : List MicroOp) (s : State) : State :=
  { s with req := some r, n := n, script := script, ip := 0, mode := .run }

/-- The acceptance step (R105) for a request whose own check, effective length and script are given. The order of the
branches is R108's. In FAULTED the request is never taken. -/
def present (r : Request) (check : Option FaultCode) (n : Nat) (script : List MicroOp) (s : State) : Answer :=
  match s.mode with
  | .faulted => .next s
  | .run => .next (raiseFault .busyRequest r s)
  | .idle =>
    match check with
    | some c => .next (raiseFault c r s)
    | none => .next (latch r n script s)

/-- The reset input (R121): release select first, `RESET`, every field except `fault` to its reset value. It is the only
way out of FAULTED (R109) and sends nothing on the bus (R124). -/
def resetInput (s : State) : State := clearRequest (emit .reset (driveCs true s))

end Sys2Proof.Machine
end

