-- ==== Sys2Proof/Machine/Operands.lean ====
section
/-! DEFINITION. The operand forms: what each operation takes from the request (10_state.md R18, 30_encoding.md R58, R63),
the page-program payload (20_memory.md R38) and the identifier (42_read_ops.md R93). -/

namespace Sys2Proof.Machine

/-- READ's data length, `n = req.len` (R18, R94). -/
def readLength (f : Fields) : Nat := f.len.toNat

/-- PAGE_PROGRAM's data length, `n = min(req.len, PP_MAX)` (R18, R97). -/
def programLength (f : Fields) : Nat := min f.len.toNat Config.ppMax

/-- `n(r)` (R18): fixed at acceptance; 0 for the operations without a length. -/
def lengthOf (r : Request) : Nat :=
  match decodeRequest r with
  | .reqRead f => readLength f
  | .reqPageProgram f => programLength f
  | .reqIdentify _ | .reqSectorErase _ | .reqChipErase _ => 0
  | .reqReserved5 _ | .reqReserved6 _ | .reqReserved7 _ => 0
  | .readId | .readData _ | .pageProgram _ | .sectorErase _ | .chipErase | .writeEnable | .readStatus1 => 0

/-- The payload bytes `MemRead(src + 0, 1) ... MemRead(src + n - 1, 1)` (R38): the first `n` of the captured payload. -/
def payload (src : List Byte) (n : Nat) : List Byte := src.take n

/-- The captured payload of the request in progress. -/
def capturedSrc (s : State) : List Byte :=
  match s.req with
  | some r => r.src
  | none => []

/-- `id = (b0 << 16) | (b1 << 8) | b2` (R93). -/
def identifier (b : IdBuf) : Ident := joinBytes b.b0 b.b1 b.b2

/-- The identifier RET answers with: IDENTIFY's, and a dash for every other operation (R31, R79). -/
def responseId (s : State) : Option Ident :=
  match s.req with
  | some r => if r.op = 0 then some (identifier s.idBuf) else none
  | none => none

end Sys2Proof.Machine
end

