-- ==== Sys2Proof/Machine/Scripts.lean ====
section
/-! DEFINITION. The micro-op lists: the seven frames of 30_encoding.md R59 with their data phases (R58) inside one
bracket each (40_bus_and_select.md R69, R70), the five scripts built from them (42_read_ops.md R92, R94,
43_mutating_ops.md R96, R100, R101), and the frame in progress, read back from the script at `ip`. -/

namespace Sys2Proof.Machine

/-! ### Frames -/

/-- One bracket: select, the command part, the data phase, release (R69). The command part is the encoder's. -/
def bracket (i : Instr) (data : List MicroOp) : List MicroOp :=
  .csa :: (commandBytes i).map .tx ++ data ++ [.csd]

/-- READ_ID: exactly three bytes in (R92). -/
def readIdFrame : List MicroOp := bracket .readId [.rxi 0, .rxi 1, .rxi 2]

/-- READ_DATA: `n` bytes in, to offsets 0..n-1 in order (R94). -/
def readDataFrame (a : Addr) (n : Nat) : List MicroOp := bracket (.readData a) ((List.range n).map .rxd)

/-- PAGE_PROGRAM: the payload out, in the same bracket as the command part (R96). -/
def pageProgramFrame (a : Addr) (bytes : List Byte) : List MicroOp := bracket (.pageProgram a) (bytes.map .tx)

/-- SECTOR_ERASE (R100). -/
def sectorEraseFrame (a : Addr) : List MicroOp := bracket (.sectorErase a) []

/-- CHIP_ERASE (R101). -/
def chipEraseFrame : List MicroOp := bracket .chipErase []

/-- `WREN_SEQ` (R83). -/
def writeEnableFrame : List MicroOp := bracket .writeEnable []

/-- READ_STATUS_1: the POLL micro-op, which makes the frame of each iteration itself (R86). -/
def readStatusFrame : List MicroOp := [.poll]

/-! ### Scripts -/

/-- R92. -/
def identifyScript : List MicroOp := readIdFrame ++ [.ret]

/-- R94. -/
def readScript (f : Fields) : List MicroOp := readDataFrame f.addr (readLength f) ++ [.ret]

/-- R96. -/
def pageProgramScript (f : Fields) : List MicroOp :=
  writeEnableFrame ++ pageProgramFrame f.addr (payload f.src (programLength f)) ++ readStatusFrame ++ [.ret]

/-- R100. -/
def sectorEraseScript (f : Fields) : List MicroOp :=
  writeEnableFrame ++ sectorEraseFrame f.addr ++ readStatusFrame ++ [.ret]

/-- R101. -/
def chipEraseScript : List MicroOp := writeEnableFrame ++ chipEraseFrame ++ readStatusFrame ++ [.ret]

/-- `script(req)` (R20); a reserved code has none (R62). -/
def scriptOf (r : Request) : List MicroOp :=
  match decodeRequest r with
  | .reqIdentify _ => identifyScript
  | .reqRead f => readScript f
  | .reqPageProgram f => pageProgramScript f
  | .reqSectorErase f => sectorEraseScript f
  | .reqChipErase _ => chipEraseScript
  | .reqReserved5 _ | .reqReserved6 _ | .reqReserved7 _ => []
  | .readId | .readData _ | .pageProgram _ | .sectorErase _ | .chipErase | .writeEnable | .readStatus1 => []

/-! ### The frame in progress -/

/-- The index of the last CSA at or before `ip`, or 0. -/
def bracketStart (script : List MicroOp) : Nat → Nat
  | 0 => 0
  | k + 1 => if script[k + 1]? = some .csa then k + 1 else bracketStart script k

/-- The micro-ops up to and including the first CSD. -/
def uptoCsd : List MicroOp → List MicroOp
  | [] => []
  | u :: us => if u = .csd then [.csd] else u :: uptoCsd us

/-- The bracket of `script` around index `ip`: from its CSA to its CSD, or the POLL micro-op, which makes its own
brackets (R69). It is empty where no bracket is in progress (at RET, or outside the script). -/
def bracketAt (script : List MicroOp) (ip : Nat) : List MicroOp :=
  match script[ip]? with
  | none | some .ret => []
  | some .poll => [.poll]
  | some .csa | some .csd | some (.tx _) | some (.rxi _) | some (.rxd _) =>
    let j := bracketStart script ip
    let b := uptoCsd (script.drop j)
    if ip < j + b.length then b else []

/-- The leading TX operands of a list of micro-ops. -/
def txOperands : List MicroOp → List Byte
  | .tx b :: us => b :: txOperands us
  | _ => []

/-- The bytes a bracket transmits from its first byte-time on (R54, R86). -/
def bracketBytes : List MicroOp → List Byte
  | .csa :: us => txOperands us
  | [.poll] => [opReadStatus1]
  | _ => []

/-- The micro-ops of a wire frame under the request in progress, which gives the data phase its length and its bytes
(R58); a request row has none. -/
def frameOf (i : Instr) (s : State) : List MicroOp :=
  match i with
  | .readId => readIdFrame
  | .readData a => readDataFrame a s.n
  | .pageProgram a => pageProgramFrame a (payload (capturedSrc s) s.n)
  | .sectorErase a => sectorEraseFrame a
  | .chipErase => chipEraseFrame
  | .writeEnable => writeEnableFrame
  | .readStatus1 => readStatusFrame
  | .reqIdentify _ | .reqRead _ | .reqPageProgram _ | .reqSectorErase _ | .reqChipErase _ => []
  | .reqReserved5 _ | .reqReserved6 _ | .reqReserved7 _ => []

/-- The frame in progress: the bytes of the bracket around `ip`, decoded (R60). `none` outside a bracket, and for a
bracket that is no frame of the engine (R64), which no accepted request has. -/
def fetchFrame (s : State) : Option Instr :=
  let b := bracketAt s.script s.ip
  match decodeFrame (bracketBytes b) with
  | .ok (i, _) => if s.mode = .run ∧ frameOf i s = b then some i else none
  | .error _ => none

end Sys2Proof.Machine
end

