-- ==== Sys2Proof/Machine/Requests.lean ====
section
/-! DEFINITION. The meanings of the eight request rows (30_encoding.md R61, R62): the acceptance step of
60_exceptions.md R105 with the operation's own check, effective length (10_state.md R18) and script (R20). The script is
then run by the engine, one micro-op per step (R80). -/

namespace Sys2Proof.Machine

/-- IDENTIFY (R92): nothing to check. -/
def execReqIdentify (f : Fields) (s : State) : Answer := present (requestOf 0 f) none 0 identifyScript s

/-- READ (R94): DST_TOO_SMALL when `dst_cap < len`. -/
def execReqRead (f : Fields) (s : State) : Answer :=
  present (requestOf 1 f) (if f.dstCap < readLength f then some .dstTooSmall else none) (readLength f) (readScript f) s

/-- PAGE_PROGRAM (R96): SRC_TOO_SHORT when `length(src) < min(len, 256)`. -/
def execReqPageProgram (f : Fields) (s : State) : Answer :=
  present (requestOf 2 f) (if f.src.length < programLength f then some .srcTooShort else none) (programLength f)
    (pageProgramScript f) s

/-- SECTOR_ERASE (R100): nothing to check, the address as given. -/
def execReqSectorErase (f : Fields) (s : State) : Answer := present (requestOf 3 f) none 0 (sectorEraseScript f) s

/-- CHIP_ERASE (R101): nothing to check. -/
def execReqChipErase (f : Fields) (s : State) : Answer := present (requestOf 4 f) none 0 chipEraseScript s

/-- Reserved code 5 (R62): ILLEGAL_OP. -/
def execReqReserved5 (f : Fields) (s : State) : Answer := present (requestOf 5 f) (some .illegalOp) 0 [] s

/-- Reserved code 6 (R62): ILLEGAL_OP. -/
def execReqReserved6 (f : Fields) (s : State) : Answer := present (requestOf 6 f) (some .illegalOp) 0 [] s

/-- Reserved code 7 (R62): ILLEGAL_OP. -/
def execReqReserved7 (f : Fields) (s : State) : Answer := present (requestOf 7 f) (some .illegalOp) 0 [] s

end Sys2Proof.Machine
end

