-- ==== Sys2Proof/Machine/Flags.lean ====
section
/-! DEFINITION. The engine has no flags of its own (10_state.md R27). What it tests: the chip's busy bit (41_helpers.md
R87) and the poll bound (R89). What it drives from its state: `ready` (R30) and the derived busy-poll state (R24). -/

namespace Sys2Proof.Machine

/-- Busy test: bit 0 of the status byte and nothing else (R87). -/
def busy (st : Byte) : Bool := st.getLsbD Config.busyBit

/-- `POLL_LIMIT` is finite and this many completed iterations reach it (R86, R89). -/
def limitReached (limit : Option Nat) (count : Nat) : Bool :=
  match limit with
  | none => false
  | some l => count == l

/-- The `ready` output, equal to `mode = IDLE` (R30). -/
def ready (s : State) : Bool := s.mode == .idle

/-- The source's busy-poll states (R24). -/
inductive PollState where
  | polling
  | idle
  deriving DecidableEq, Repr

/-- `poll_state(s)` (R24): POLLING while the micro-op at `ip` is POLL in RUN. -/
def pollState (s : State) : PollState :=
  if s.mode = .run ∧ s.script[s.ip]? = some .poll then .polling else .idle

end Sys2Proof.Machine
end

