-- ==== Sys2Proof/Machine/MicroOps.lean ====
section
/-! DEFINITION. The micro-ops (40_bus_and_select.md R75-R79) and the POLL micro-op, one phase per step (41_helpers.md
R86, R89). One micro-op, or one phase, is one engine step (R80). -/

namespace Sys2Proof.Machine

/-- CSA (R75). -/
def microCsa (s : State) : Answer := .next (advance (driveCs false s))

/-- CSD (R76). -/
def microCsd (s : State) : Answer := .next (advance (driveCs true s))

/-- TX(b) (R77). -/
def microTx (b : Byte) (s : State) : Answer := exchange (fun s => .next (advance (transmit b s))) s

/-- RXI(k) (R78). -/
def microRxi (k : Fin 3) (s : State) : Answer :=
  exchange (fun s => .next (advance { receive s with idBuf := s.idBuf.put k (chipByte s) })) s

/-- RXD(i) (R78): `R(v)`, then `DW(i, v)`. Acceptance ensured `i < dst_cap`; past the buffer there is nothing to write to
(R37). -/
def microRxd (i : Nat) (s : State) : Answer :=
  if i < dstCap s then
    exchange (fun s => .next (advance (writeDst i (chipByte s) (receive s)))) s
  else .fault (.outsideDestination i)

/-- The end of a poll iteration, phase P_CSD (R86): not busy leaves POLL, the bound ends the request (R89), otherwise the
next step starts a new iteration. -/
def pollDecide (s : State) : State :=
  let t := { driveCs true s with pollCount := s.pollCount + 1, pollPhase := .pCsa }
  if busy s.st = false then { t with pollCount := 0, ip := s.ip + 1 }
  else if limitReached s.pollLimit (s.pollCount + 1) then complete .notResponding none t
  else t

/-- POLL (R86): the phase at `poll_phase`. -/
def microPoll (s : State) : Answer :=
  match s.pollPhase with
  | .pCsa => .next { driveCs false s with pollPhase := .pTx }
  | .pTx => exchange (fun s => .next { transmit opReadStatus1 s with pollPhase := .pRx }) s
  | .pRx => exchange (fun s => .next { receive s with st := chipByte s, pollPhase := .pCsd }) s
  | .pCsd => .next (pollDecide s)

/-- RET (R79). -/
def microRet (s : State) : Answer := .next (complete .ok (responseId s) s)

/-- The micro-op `script[ip]` (R80). -/
def microStep (s : State) : Answer :=
  match s.script[s.ip]? with
  | none => .fault .ipOutsideScript
  | some .csa => microCsa s
  | some .csd => microCsd s
  | some (.tx b) => microTx b s
  | some (.rxi k) => microRxi k s
  | some (.rxd i) => microRxd i s
  | some .poll => microPoll s
  | some .ret => microRet s

end Sys2Proof.Machine
end

