-- ==== Sys2Proof/Machine/Wire.lean ====
section
/-! DEFINITION. The meanings of the seven wire rows (30_encoding.md R59). A frame is run by the engine micro-op by
micro-op, one step each (40_bus_and_select.md R80, 20_memory.md R45), so the meaning of a frame is the engine step its
bracket is at: the select at its start, each byte of its command part and of its data phase, the release at its end, and
for READ_STATUS_1 the four phases of a poll iteration (41_helpers.md R86). The frame is written out in full in the meaning
(the data phase from the request, R58); a frame that is not the one in progress cannot be run (10_state.md R29; log 2). -/

namespace Sys2Proof.Machine

/-- One engine step inside the frame `ops`: the micro-op at `ip`, if the bracket in progress is `ops`. -/
def stepFrame (ops : List MicroOp) (s : State) : Answer :=
  if s.mode = .run ∧ bracketAt s.script s.ip = ops then microStep s else .fault .frameNotInProgress

/-- READ_ID (R92): `S T9F R R R E`, the bytes to `id_buf[0..2]`. -/
def execReadId (s : State) : Answer := stepFrame readIdFrame s

/-- READ_DATA (R94): `S T03 T T T`, then `n` bytes to the destination buffer, `E`. -/
def execReadData (a : Addr) (s : State) : Answer := stepFrame (readDataFrame a s.n) s

/-- PAGE_PROGRAM (R96): `S T02 T T T`, then the first `n` payload bytes, `E`. -/
def execPageProgram (a : Addr) (s : State) : Answer :=
  stepFrame (pageProgramFrame a (payload (capturedSrc s) s.n)) s

/-- SECTOR_ERASE (R100): `S T20 T T T E`, the address as given. -/
def execSectorErase (a : Addr) (s : State) : Answer := stepFrame (sectorEraseFrame a) s

/-- CHIP_ERASE (R101): `S TC7 E`. -/
def execChipErase (s : State) : Answer := stepFrame chipEraseFrame s

/-- WRITE_ENABLE (R83): `S T06 E`. -/
def execWriteEnable (s : State) : Answer := stepFrame writeEnableFrame s

/-- READ_STATUS_1 (R86): `S T05 R E`, then not busy leaves POLL and busy starts again or ends the request (R89). -/
def execReadStatus1 (s : State) : Answer := stepFrame readStatusFrame s

end Sys2Proof.Machine
end

