-- ==== Sys2Proof/Machine/Dispatch.lean ====
section
/-! DEFINITION. One arm per constructor of Instr: each row of spec/opcode_table.json has a meaning of its own. -/

namespace Sys2Proof.Machine

def exec (i : Instr) (s : State) : Host.Outcome State Fault Refusal :=
  match i with
  -- the wire space, R59
  | .readId => Sys2Proof.Machine.execReadId s
  | .readData a => Sys2Proof.Machine.execReadData a s
  | .pageProgram a => Sys2Proof.Machine.execPageProgram a s
  | .sectorErase a => Sys2Proof.Machine.execSectorErase a s
  | .chipErase => Sys2Proof.Machine.execChipErase s
  | .writeEnable => Sys2Proof.Machine.execWriteEnable s
  | .readStatus1 => Sys2Proof.Machine.execReadStatus1 s
  -- the request space, R61 and R62
  | .reqIdentify f => Sys2Proof.Machine.execReqIdentify f s
  | .reqRead f => Sys2Proof.Machine.execReqRead f s
  | .reqPageProgram f => Sys2Proof.Machine.execReqPageProgram f s
  | .reqSectorErase f => Sys2Proof.Machine.execReqSectorErase f s
  | .reqChipErase f => Sys2Proof.Machine.execReqChipErase f s
  | .reqReserved5 f => Sys2Proof.Machine.execReqReserved5 f s
  | .reqReserved6 f => Sys2Proof.Machine.execReqReserved6 f s
  | .reqReserved7 f => Sys2Proof.Machine.execReqReserved7 f s

end Sys2Proof.Machine
end

