-- ==== Sys2Proof/Machine/Turn.lean ====
section
/-! DEFINITION. Whose step it is (00_scope.md R7, 60_exceptions.md R113) and where the next instruction comes from: a
frame from the bracket in progress, a request from the request port. Step.lean only calls this. -/

namespace Sys2Proof.Machine

/-- The engine's turn (R80): in RUN the frame in progress takes its next micro-op; outside a frame (RET, which ends the
request) the micro-op at `ip` is taken as it stands; in IDLE and FAULTED the engine has no step. -/
def engineTurn (s : State) : Answer :=
  match s.mode with
  | .idle | .faulted => .next s
  | .run =>
    match fetchFrame s with
    | some i => exec i s
    | none => microStep s

/-- The host presents a request (R105): the instruction its code stands for. -/
def hostRequest (r : Request) (s : State) : Answer := exec (decodeRequest r) s

/-- One step of the machine: the next move of the agenda is made; with none lined up it is the engine's turn (log 1). -/
def takeTurn (s : State) : Answer :=
  match s.agenda with
  | [] => engineTurn s
  | .engine :: rest => engineTurn { s with agenda := rest }
  | .request r :: rest => hostRequest r { s with agenda := rest }
  | .await r :: rest => if ready s then hostRequest r { s with agenda := rest } else engineTurn s
  | .reset :: rest => .next (resetInput { s with agenda := rest })
  | .stall :: rest => .next { s with agenda := rest, transport := .stalled }
  | .resume :: rest => .next { s with agenda := rest, transport := .live }

/-! ### Placing an instruction where the next step takes it -/

/-- The request `r` in progress with its script at `ip`, nothing selected, the engine to move. -/
def placeScript (r : Request) (ip : Nat) (s : State) : State :=
  { s with
    csN := true, mode := .run, req := some r, n := lengthOf r, script := scriptOf r, ip := ip
    pollPhase := .pCsa, pollCount := 0, agenda := .engine :: s.agenda }

/-- The state whose next step runs `i`: a request is put on the request port; a frame is put in progress, at its first
micro-op, inside the script of a request that has it (log 4). -/
def placeInstr (i : Instr) (s : State) : State :=
  match i with
  | .readId => placeScript (requestOf 0 {}) 0 s
  | .readData a => placeScript (requestOf 1 { addr := a }) 0 s
  | .pageProgram a => placeScript (requestOf 2 { addr := a }) 3 s
  | .sectorErase a => placeScript (requestOf 3 { addr := a }) 3 s
  | .chipErase => placeScript (requestOf 4 {}) 3 s
  | .writeEnable => placeScript (requestOf 4 {}) 0 s
  | .readStatus1 => placeScript (requestOf 4 {}) 6 s
  | .reqIdentify f => { s with agenda := .request (requestOf 0 f) :: s.agenda }
  | .reqRead f => { s with agenda := .request (requestOf 1 f) :: s.agenda }
  | .reqPageProgram f => { s with agenda := .request (requestOf 2 f) :: s.agenda }
  | .reqSectorErase f => { s with agenda := .request (requestOf 3 f) :: s.agenda }
  | .reqChipErase f => { s with agenda := .request (requestOf 4 f) :: s.agenda }
  | .reqReserved5 f => { s with agenda := .request (requestOf 5 f) :: s.agenda }
  | .reqReserved6 f => { s with agenda := .request (requestOf 6 f) :: s.agenda }
  | .reqReserved7 f => { s with agenda := .request (requestOf 7 f) :: s.agenda }

end Sys2Proof.Machine
end

