-- ==== Sys2Proof/Machine/Step.lean ====
section
/-! DEFINITION. One step of the machine, and the placing of a word of the opcode table where the next step runs it. -/

namespace Sys2Proof.Machine

/-- One step (R7, R80, R113). -/
def step (s : State) : Host.Outcome State Fault Refusal := takeTurn s

/-- `s` with the table's word placed so that the very next step runs its instruction (log 4). A word that no instruction
has leaves `s` as it is. -/
def State.withFetchWord (s : State) (nbits w : Nat) : State :=
  match decodeTableWord nbits w with
  | some i => placeInstr i s
  | none => s

end Sys2Proof.Machine
end

