-- ==== Sys2Proof/WellFormed.lean ====
section
/-! DEFINITION. Which instructions keep the host's duties. A wire frame is well formed at every address (20_memory.md
R39, R43: no address is refused). A request is well formed when acceptance in IDLE takes it (60_exceptions.md R105): its
code is not reserved (30_encoding.md R62), a READ's destination is sized (HZ3), a PAGE_PROGRAM has its payload (HZ4).
An ill-formed request is no error of the model: presenting it raises the fault the spec names (log 17). -/

namespace Sys2Proof

/-- R62: the code is one of the five operations. -/
def Instr.opLegal : Instr → Bool
  | .reqReserved5 _ | .reqReserved6 _ | .reqReserved7 _ => false
  | .readId | .readData _ | .pageProgram _ | .sectorErase _ | .chipErase | .writeEnable | .readStatus1 => true
  | .reqIdentify _ | .reqRead _ | .reqPageProgram _ | .reqSectorErase _ | .reqChipErase _ => true

/-- `DstSized` (20_memory.md R44, HZ3): a READ's destination buffer has at least `len` bytes. -/
def Instr.dstSized : Instr → Bool
  | .reqRead f => decide (f.len.toNat ≤ f.dstCap)
  | .readId | .readData _ | .pageProgram _ | .sectorErase _ | .chipErase | .writeEnable | .readStatus1 => true
  | .reqIdentify _ | .reqPageProgram _ | .reqSectorErase _ | .reqChipErase _ => true
  | .reqReserved5 _ | .reqReserved6 _ | .reqReserved7 _ => true

/-- HZ4: a PAGE_PROGRAM comes with at least `min(len, 256)` payload bytes. -/
def Instr.srcLongEnough : Instr → Bool
  | .reqPageProgram f => decide (min f.len.toNat Config.ppMax ≤ f.src.length)
  | .readId | .readData _ | .pageProgram _ | .sectorErase _ | .chipErase | .writeEnable | .readStatus1 => true
  | .reqIdentify _ | .reqRead _ | .reqSectorErase _ | .reqChipErase _ => true
  | .reqReserved5 _ | .reqReserved6 _ | .reqReserved7 _ => true

/-- The instruction is legal and keeps the duties acceptance checks. -/
def Instr.wellFormed (i : Instr) : Bool := i.opLegal && i.dstSized && i.srcLongEnough

end Sys2Proof
end

