-- ==== Sys2Proof/Safety.lean ====
section
/-! DEFINITION. The terms claims use: the host's duties that nothing checks (20_memory.md R44), the assumption about the
chip that READ's contents rest on (10_state.md R35), runs, the end of a run and its result (70_reset_and_hazards.md R131), the
two liveness premises (R132), the bracket discipline of the wire (40_bus_and_select.md R69) and the invariant of the machine's
states. -/

namespace Sys2Proof.Machine

/-! ### Host duties, R44 -/

/-- `PPAligned(r)`. -/
def PPAligned (r : Request) : Prop := r.addr.toNat % Config.pageBytes = 0

/-- `PPNoCross(r)`. -/
def PPNoCross (r : Request) : Prop :=
  r.addr.toNat % Config.pageBytes + min r.len.toNat Config.ppMax ≤ Config.pageBytes

/-- `SEAligned(r)`. -/
def SEAligned (r : Request) : Prop := r.addr.toNat % Config.sectorBytes = 0

/-- `ReadInChip(r)`. -/
def ReadInChip (r : Request) : Prop := r.addr.toNat + r.len.toNat ≤ Config.chipBytes

/-- `DstSized(r)`, which acceptance checks for READ. -/
def DstSized (r : Request) : Prop := r.len.toNat ≤ r.dstCap

/-! ### Assumptions about the outside world -/

/-- `ChipReadAutoInc` (R35), for the answers to one READ from `addr`: while the address stays inside the chip, answer `i`
is the chip's byte at `addr + i` (R95). A premise about the chip; nothing in the machine enforces it. -/
def ChipReadAutoInc (flash : Nat → Byte) (addr : Addr) (answers : List Byte) : Prop :=
  ∀ i v, answers[i]? = some v → addr.toNat + i < Config.chipBytes → v = flash (addr.toNat + i)

/-- The manufacturer part of an identifier, its high byte (`ChipIdLayout`, R35, R93). -/
def manufacturer (id : Ident) : Byte := id.extractLsb' 16 8

/-- The device part of an identifier, its low two bytes (`ChipIdLayout`, R35, R93). -/
def device (id : Ident) : BitVec 16 := id.extractLsb' 0 16

/-! ### Runs -/

/-- `k` steps of the machine, up to the first stop. -/
def runSteps : Nat → State → Answer
  | 0, s => .next s
  | k + 1, s =>
    match step s with
    | .next t => runSteps k t
    | .fault r => .fault r
    | .refused r => .refused r

/-- Some run from `s` ends in `t`. -/
def Reaches (s t : State) : Prop := ∃ k, runSteps k s = .next t

/-- The run from a state comes to a state where `p` holds, and `q` holds in every state before it. -/
inductive Until (q p : State → Prop) : State → Prop where
  | now {s : State} (hp : p s) : Until q p s
  | later {s t : State} (hq : q s) (hs : step s = .next t) (ht : Until q p t) : Until q p s

/-! ### The end of a run, R131 -/

/-- The request a move presents. -/
def Turn.request? : Turn → Option Request
  | .request r | .await r => some r
  | .engine | .reset | .stall | .resume => none

/-- The requests still to be presented, in order: from a run's first state, the host's program. Resets and the other agents'
moves may stand between them. -/
def toPresent (s : State) : List Request := s.agenda.filterMap Turn.request?

/-- The final states: every request of the list has been presented, IDLE, select high, no fault. Moves that present no request
may be left over. A run in which a request came before the `DONE` of the one before it has a fault (R105), so it is never
final. -/
structure Final (s : State) : Prop where
  presented : toPresent s = []
  mode : s.mode = .idle
  select : s.csN = true
  noFault : s.fault = none

/-- The bytes of a READ's destination buffer, offsets 0..dst_cap-1 (R36). -/
def destinationOf (r : Request) (s : State) : List (Option Byte) :=
  (List.range r.dstCap).map fun i => memRead s.dst (r.dstBase + i)

/-- What a run gives: its trace and its final destination buffers, one for each READ of the program, in order. -/
structure RunResult where
  trace : List Event
  destinations : List (List (Option Byte))
  deriving DecidableEq, Repr

/-- The result of a run from `s` to `t`. -/
def runResult (s t : State) : RunResult where
  trace := t.trace
  destinations := ((toPresent s).filter fun r => r.op == 1).map fun r => destinationOf r t

/-- The run of `k` steps from `s` is final, in the state `t`. -/
def FinalRun (k : Nat) (s t : State) : Prop := runSteps k s = .next t ∧ Final t

/-! ### Liveness premises, R132 -/

/-- The micro-op the engine is at starts an exchange with the transport (R80). -/
def AtExchange (s : State) : Prop :=
  (∃ b, s.script[s.ip]? = some (.tx b)) ∨ (∃ k, s.script[s.ip]? = some (.rxi k)) ∨
    (∃ i, s.script[s.ip]? = some (.rxd i) ∧ i < dstCap s) ∨
    (s.script[s.ip]? = some .poll ∧ (s.pollPhase = .pTx ∨ s.pollPhase = .pRx))

/-- The coming step is the engine's, in RUN. -/
def EngineMoves (s : State) : Prop :=
  s.mode = .run ∧ (s.agenda = [] ∨ (∃ more, s.agenda = .engine :: more) ∨ ∃ r more, s.agenda = .await r :: more)

/-- The coming step cuts the request in progress: a reset (R121), or a request that is presented meanwhile (BUSY_REQUEST,
R105). -/
def CutComes (s : State) : Prop :=
  s.mode = .run ∧ ((∃ more, s.agenda = .reset :: more) ∨ ∃ r more, s.agenda = .request r :: more)

/-- `TransportLive`: every exchange the engine starts eventually completes, unless its request is cut first. A transport that
stalls and resumes later meets it. -/
def TransportLive (s : State) : Prop :=
  ∀ t, Reaches s t → t.mode = .run → AtExchange t →
    Until (fun u => u.mode = .run) (fun u => CutComes u ∨ (EngineMoves u ∧ u.transport = .live)) t

/-- `ChipEventuallyReady`: in every POLL micro-op some status byte with bit 0 = 0 is eventually received, unless the request is
cut first. -/
def ChipEventuallyReady (s : State) : Prop :=
  ∀ t, Reaches s t → pollState t = .polling →
    Until (fun u => pollState u = .polling)
      (fun u => CutComes u ∨ (pollState u = .polling ∧ u.pollPhase = .pCsd ∧ busy u.st = false)) t

/-- The coming step answers DONE with a result that `ok` allows and ends the request in progress (R31). -/
def DoneComes (ok : Result → Prop) (s : State) : Prop :=
  s.mode = .run ∧ ∃ t r id, step s = .next t ∧ t.mode = .idle ∧ t.trace.getLast? = some (.done r id) ∧ ok r

/-! ### The bracket discipline of the wire -/

/-- Where the wire stands after a trace. -/
inductive BusState where
  /-- select high, no bracket open. -/
  | high
  /-- `S` was the last bus event: the opcode byte comes next. -/
  | selected
  /-- inside a bracket, after its first byte. -/
  | opened
  /-- a bracket was ended before its first byte: only a fault or a reset does that. -/
  | cut
  deriving DecidableEq, Repr

/-- The events a bracket discipline admits (R69, R72, X7 of 95_test_vectors.md): `S` and `E` alternate, `S` first; `S` is
followed by a `T`; bytes move only inside a bracket; DONE, FAULT and RESET come only with select high. -/
def busNext : BusState → Event → Option BusState
  | .high, .sel => some .selected
  | .selected, .tx _ => some .opened
  | .opened, .tx _ => some .opened
  | .opened, .rx _ => some .opened
  | .opened, .dw _ _ => some .opened
  | .opened, .desel => some .high
  | .selected, .desel => some .cut
  | .high, .done _ _ => some .high
  | .high, .fault _ => some .high
  | .high, .reset => some .high
  | .cut, .fault _ => some .high
  | .cut, .reset => some .high
  | .high, _ => none
  | .selected, _ => none
  | .opened, _ => none
  | .cut, _ => none

/-- The discipline over a list of events. -/
def busRun : BusState → List Event → Option BusState
  | b, [] => some b
  | b, e :: es =>
    match busNext b e with
    | some b' => busRun b' es
    | none => none

/-! ### The invariant -/

/-- The request in progress is one that acceptance takes (R105). -/
def accepted (r : Request) : Bool := (decodeRequest r).wellFormed

/-- The select level that belongs to the micro-op the next engine step takes (R75-R79, R86). -/
def levelAtIp (s : State) : Bool :=
  match s.script[s.ip]? with
  | none | some .csa | some .ret => true
  | some .csd | some (.tx _) | some (.rxi _) | some (.rxd _) => false
  | some .poll => s.pollPhase == .pCsa

/-- A request in progress: its script, its length and its index are those of the accepted request (R18-R20), the select
level is that of the micro-op at `ip` (R69), the poll fields are at rest outside POLL (R23), and the iterations completed are
fewer than a finite `POLL_LIMIT` (R89). -/
structure InProgress (s : State) : Prop where
  request : ∃ r, s.req = some r ∧ accepted r = true ∧ s.n = lengthOf r ∧ s.script = scriptOf r
  inScript : s.ip < s.script.length
  level : s.csN = levelAtIp s
  pollAtRest : s.script[s.ip]? ≠ some .poll → s.pollPhase = .pCsa ∧ s.pollCount = 0
  pollBelowLimit : ∀ l, s.pollLimit = some l → s.pollCount < l

/-- Between requests the engine holds no request state (R26). -/
structure AtRest (s : State) : Prop where
  level : s.csN = true
  req : s.req = none
  n : s.n = 0
  script : s.script = []
  ip : s.ip = 0
  idBuf : s.idBuf = ⟨0, 0, 0⟩
  st : s.st = 0
  pollPhase : s.pollPhase = .pCsa
  pollCount : s.pollCount = 0

/-- The invariant of the machine: the destination memory is in its canonical form, a finite `POLL_LIMIT` is at least 1
(R6), and each mode has its own part (R16). -/
structure EngineInv (s : State) : Prop where
  dst : Memory.wf s.dst = true
  pollLimit : s.pollLimit ≠ some 0
  run : s.mode = .run → InProgress s
  idle : s.mode = .idle → AtRest s
  faulted : s.mode = .faulted → s.csN = true ∧ s.fault ≠ none

/-- Where the wire stands in a state (R69): high with select high; otherwise right after `S`, or past the opcode byte. -/
def busAt (s : State) : BusState :=
  if s.csN = true then .high
  else if s.script[s.ip]? = some .poll then (if s.pollPhase = .pTx then .selected else .opened)
  else if 0 < s.ip ∧ s.script[s.ip - 1]? = some .csa then .selected
  else .opened

/-- The trace so far keeps the bracket discipline, and the wire stands where the engine's state says. -/
def BusDisciplined (s : State) : Prop := busRun .high s.trace = some (busAt s)

end Sys2Proof.Machine
end

