-- ==== Sys2Proof/Certificates/Slice0/Obligations.lean ====
section
/-! DEFINITION. The statements for the provers. Each docstring names the rule of spec/ it is about. The few words the
statements share come first. -/

namespace Sys2Proof.Claims

open Sys2Proof.Machine

/-- `k` engine steps inside the frame `i`: its meaning, run `k` times. -/
def runFrame : Nat → Instr → State → Answer
  | 0, _, s => .next s
  | k + 1, i, s =>
    match exec i s with
    | .next t => runFrame k i t
    | .fault r => .fault r
    | .refused r => .refused r

/-- `vs` are `k` bytes the chip may give from `s` on: any bytes, but for the answers lined up, which come first (R34). -/
def Answers (k : Nat) (s : State) (vs : List Byte) : Prop :=
  vs.length = k ∧ ∀ j v, j < k → s.chip[j]? = some v → vs[j]? = some v

/-- The frame `i` is the one in progress: in RUN, the bracket around `ip` is the frame's. -/
def FrameInProgress (i : Instr) (s : State) : Prop :=
  s.mode = .run ∧ bracketAt s.script s.ip = frameOf i s ∧ frameOf i s ≠ []

/-- The frame `i` is about to start: at its CSA, select high, the transport live. -/
def FrameStarts (i : Instr) (s : State) : Prop :=
  FrameInProgress i s ∧ s.script[s.ip]? = some .csa ∧ s.csN = true ∧ s.transport = .live

/-- The three `T` events of an address (R57). -/
def addrEvents (a : Addr) : List Event :=
  [.tx (a.extractLsb' 16 8), .tx (a.extractLsb' 8 8), .tx (a.extractLsb' 0 8)]

/-- `R(v0) DW(0,v0) R(v1) DW(1,v1) ...` (R94), the first offset being `i`. -/
def readEvents : Nat → List Byte → List Event
  | _, [] => []
  | i, v :: vs => .rx v :: .dw i v :: readEvents (i + 1) vs

/-- `S T05 R(v) E` for each status byte (R86). -/
def pollEvents : List Byte → List Event
  | [] => []
  | v :: vs => .sel :: .tx 0x05 :: .rx v :: .desel :: pollEvents vs

/-- The state after `raise Fault(c)`, written out from R107. -/
def faultEntry (c : FaultCode) (s : State) : State :=
  { s with
    csN := true
    trace := s.trace ++ (if s.csN = true then [.fault c] else [.desel, .fault c])
    fault := some c, mode := .faulted }

/-- `t` with the record kept beside the fault code (log 9) put back to that of `s`. -/
def sansRecord (s t : State) : State := { t with faultReq := s.faultReq, faultIp := s.faultIp }

/-- Every engine field but `cs_n` and `fault` at its reset value, written out from R122. -/
def cleared (s : State) : State :=
  { s with
    mode := .idle, req := none, n := 0, script := [], ip := 0, idBuf := ⟨0, 0, 0⟩, st := 0
    pollPhase := .pCsa, pollCount := 0 }

/-- A bus event: `S`, `E`, `T` or `R`. -/
def isBus : Event → Bool
  | .sel | .desel | .tx _ | .rx _ => true
  | .dw _ _ | .done _ _ | .fault _ | .reset => false

/-- A completion response. -/
def isDone : Event → Bool
  | .done _ _ => true
  | .sel | .desel | .tx _ | .rx _ | .dw _ _ | .fault _ | .reset => false

/-- The outside world makes no move: the engine's turn, with nothing else lined up. -/
def EngineAlone (s : State) : Prop := s.agenda = []

end Sys2Proof.Claims

open Sys2Proof Sys2Proof.Machine Sys2Proof.Claims

/-! ### Encoding -/

/-- R55-R57, R61: decoding the encoding of any instruction gives it back, with every address and every field of a
request, and for a frame with whatever its data phase transmits after the command part. -/
def Obligations.DecodeOfEncodeIsTheInstruction : Prop :=
  ∀ i : Instr, decode (encode i) = .ok (i, []) ∧
    ∀ bytes data, encode i = .wire bytes → decodeFrame (bytes ++ data) = .ok (i, data)

/-- R60, R61: what decodes to an instruction is the encoding of that instruction, followed by the data phase. -/
def Obligations.DecodedBytesAreTheEncoding : Prop :=
  (∀ bytes i rest, decodeFrame bytes = .ok (i, rest) → ∃ command, encode i = .wire command ∧ bytes = command ++ rest) ∧
    ∀ r : Request, encode (decodeRequest r) = .request r

/-- R59, R64: a frame is decoded exactly when its first byte is one of the seven opcodes and, for 0x03, 0x02 and 0x20,
three address bytes follow. Everything else is rejected by name. -/
def Obligations.OnlySevenOpcodesDecode : Prop :=
  decodeFrame [] = .error .noOpcode ∧
    ∀ (b : Byte) (rest : List Byte),
      ((∃ r, decodeFrame (b :: rest) = .ok r) ↔
        b ∈ [0x9F, 0xC7, 0x06, 0x05] ∨ (b ∈ [0x03, 0x02, 0x20] ∧ 3 ≤ rest.length)) ∧
      (b ∉ [0x9F, 0xC7, 0x06, 0x05, 0x03, 0x02, 0x20] → decodeFrame (b :: rest) = .error (.unknownOpcode b))

/-- R59, R61: words written out from the spec's tables decode to the instructions they stand for. -/
def Obligations.WordsFromTheTablesDecode : Prop :=
  decodeFrame [0b10011111] = .ok (.readId, []) ∧
    decodeFrame [0b00000011, 0x00, 0x10, 0x00] = .ok (.readData 0x001000, []) ∧
    decodeFrame [0b00000010, 0x00, 0x01, 0x00, 0xAA, 0x55] = .ok (.pageProgram 0x000100, [0xAA, 0x55]) ∧
    decodeFrame [0b00100000, 0x00, 0x12, 0x34] = .ok (.sectorErase 0x001234, []) ∧
    decodeFrame [0b11000111] = .ok (.chipErase, []) ∧
    decodeFrame [0b00000110] = .ok (.writeEnable, []) ∧
    decodeFrame [0b00000101] = .ok (.readStatus1, []) ∧
    decodeRequest { op := 0b001, addr := 0x001000, len := 16, dstCap := 16 } =
      .reqRead { addr := 0x001000, len := 16, dstCap := 16 } ∧
    decodeRequest { op := 0b111 } = .reqReserved7 {}

/-- R61: the table of request codes. -/
def Obligations.RequestCodesOfTheTable : Prop :=
  ∀ f : Fields,
    decodeRequest (requestOf 0b000 f) = .reqIdentify f ∧ decodeRequest (requestOf 0b001 f) = .reqRead f ∧
    decodeRequest (requestOf 0b010 f) = .reqPageProgram f ∧ decodeRequest (requestOf 0b011 f) = .reqSectorErase f ∧
    decodeRequest (requestOf 0b100 f) = .reqChipErase f ∧ decodeRequest (requestOf 0b101 f) = .reqReserved5 f ∧
    decodeRequest (requestOf 0b110 f) = .reqReserved6 f ∧ decodeRequest (requestOf 0b111 f) = .reqReserved7 f

/-- R57: the framer gives the three bytes of the address, most significant first, no bit dropped or changed. -/
def Obligations.AddressIsFramedMostSignificantFirst : Prop :=
  ∀ a : Addr, (addrBytes a).map BitVec.toNat = [a.toNat / 65536, a.toNat / 256 % 256, a.toNat % 256] ∧
    joinBytes (a.extractLsb' 16 8) (a.extractLsb' 8 8) (a.extractLsb' 0 8) = a

/-- R93: the identifier is the shifted-or of the three bytes, each byte at its own place, no overflow possible; the
manufacturer is the high byte, the device the low two. -/
def Obligations.IdentifierIsTheThreeBytesInOrder : Prop :=
  ∀ b : IdBuf,
    identifier b = (b.b0.zeroExtend 24 <<< 16) ||| (b.b1.zeroExtend 24 <<< 8) ||| b.b2.zeroExtend 24 ∧
    (identifier b).extractLsb' 16 8 = b.b0 ∧ (identifier b).extractLsb' 8 8 = b.b1 ∧
    (identifier b).extractLsb' 0 8 = b.b2 ∧
    (identifier b).toNat = b.b0.toNat * 65536 + b.b1.toNat * 256 + b.b2.toNat ∧
    manufacturer (identifier b) = b.b0 ∧ (device (identifier b)).toNat = b.b1.toNat * 256 + b.b2.toNat

/-- R60: a trace checker that decodes a whole bracket `S e1 ... ek E` finds the frame and its data phase. The bracket is one of bus
events: that a READ's `DW` events are filtered out before is the model's choice (log 22). -/
def Obligations.BracketsDecodeToTheirFrames : Prop :=
  ∀ i data, dataPhaseFits i data = true →
    decodeBracket (.sel :: (commandBytes i).map .tx ++ data ++ [.desel]) = some (i, data)

/-! ### A step runs the decoded instruction -/

/-- R80 (log 2): when the bytes of the bracket around `ip` decode to a frame that is the one in progress, the engine's
turn is the meaning of that frame; when the host presents a request, the step is the meaning of its code (R105). -/
def Obligations.StepRunsTheDecodedInstruction : Prop :=
  (∀ (s : State) i rest, s.mode = .run → decodeFrame (bracketBytes (bracketAt s.script s.ip)) = .ok (i, rest) →
      bracketAt s.script s.ip = frameOf i s → s.agenda = [] → Sys2Proof.Machine.step s = Sys2Proof.Machine.exec i s) ∧
    (∀ (s : State) i rest more, s.mode = .run → decodeFrame (bracketBytes (bracketAt s.script s.ip)) = .ok (i, rest) →
      bracketAt s.script s.ip = frameOf i s → s.agenda = .engine :: more →
      Sys2Proof.Machine.step s = Sys2Proof.Machine.exec i { s with agenda := more }) ∧
    (∀ (s : State) (r : Request) more, s.agenda = .request r :: more →
      Sys2Proof.Machine.step s = Sys2Proof.Machine.exec (decodeRequest r) { s with agenda := more }) ∧
    (∀ (s : State) (r : Request) more, s.agenda = .await r :: more → s.mode = .idle →
      Sys2Proof.Machine.step s = Sys2Proof.Machine.exec (decodeRequest r) { s with agenda := more })

/-- R84, R91, R92, R94, R96, R100, R101: in a request in progress, the frame fetched at each index of the script is the
one the operation has there, and none at its RET. -/
def Obligations.FrameFetchedAtEachIndex : Prop :=
  ∀ (s : State) (r : Request), EngineInv s → s.mode = .run → s.req = some r →
    (r.op = 0 → fetchFrame s = if s.ip < 6 then some .readId else none) ∧
    (r.op = 1 → fetchFrame s = if s.ip < s.n + 6 then some (.readData r.addr) else none) ∧
    (r.op = 2 → fetchFrame s =
      if s.ip < 3 then some .writeEnable else if s.ip < s.n + 9 then some (.pageProgram r.addr)
      else if s.ip = s.n + 9 then some .readStatus1 else none) ∧
    (r.op = 3 → fetchFrame s =
      if s.ip < 3 then some .writeEnable else if s.ip < 9 then some (.sectorErase r.addr)
      else if s.ip = 9 then some .readStatus1 else none) ∧
    (r.op = 4 → fetchFrame s =
      if s.ip < 3 then some .writeEnable else if s.ip < 6 then some .chipErase
      else if s.ip = 6 then some .readStatus1 else none)

/-- R80, R16 (log 1): the engine's turn executes the micro-op `script[ip]` in RUN, whatever frame it belongs to, and nothing
in IDLE and FAULTED. It is the engine's turn with nothing lined up, at an engine move, and while a host that keeps HZ1 waits
for `ready`. -/
def Obligations.EngineTurnIsTheMicroOpAtIp : Prop :=
  (∀ (s : State), (s.agenda = [] ∨ ∃ r more, s.agenda = .await r :: more) → s.mode = .run →
      Sys2Proof.Machine.step s = microStep s) ∧
    (∀ (s : State) more, s.agenda = .engine :: more → s.mode = .run →
      Sys2Proof.Machine.step s = microStep { s with agenda := more }) ∧
    (∀ (s : State), (s.agenda = [] ∨ (s.mode = .faulted ∧ ∃ r more, s.agenda = .await r :: more)) → s.mode ≠ .run →
      Sys2Proof.Machine.step s = .next s) ∧
    (∀ (s : State) more, s.agenda = .engine :: more → s.mode ≠ .run →
      Sys2Proof.Machine.step s = .next { s with agenda := more })

/-! ### The micro-ops -/

/-- R75: CSA asserts select, emits `S` and goes on; nothing else changes. -/
def Obligations.CsaAssertsSelect : Prop :=
  ∀ (s : State), s.mode = .run → s.script[s.ip]? = some .csa → s.csN = true →
    microStep s = .next { s with csN := false, trace := s.trace ++ [.sel], ip := s.ip + 1 }

/-- R76: CSD releases select, emits `E` and goes on; nothing else changes. -/
def Obligations.CsdReleasesSelect : Prop :=
  ∀ (s : State), s.mode = .run → s.script[s.ip]? = some .csd → s.csN = false →
    microStep s = .next { s with csN := true, trace := s.trace ++ [.desel], ip := s.ip + 1 }

/-- R77: TX(b) transmits `b`, any byte, when the transport completes the exchange, and goes on; nothing else changes, and
while the transport does not complete it nothing changes at all. -/
def Obligations.TxTransmitsOneByte : Prop :=
  ∀ (s : State) b, s.mode = .run → s.script[s.ip]? = some (.tx b) → s.csN = false →
    microStep s = .next (if s.transport = .live then { s with trace := s.trace ++ [.tx b], ip := s.ip + 1 } else s)

/-- R78, R37: RXI(k) puts the received byte in `id_buf[k]`; RXD(i) stores it at `dst + i`, the byte of offset `i` of the request's
destination buffer, and nowhere else, and emits `R` then `DW(i, v)`; both go on, and nothing else changes (the model's lined-up answers apart). While the transport does not
complete the exchange nothing changes at all. -/
def Obligations.RxiAndRxdReceiveOneByte : Prop :=
  (∀ (s : State) k, s.mode = .run → s.script[s.ip]? = some (.rxi k) → s.csN = false → s.transport = .live →
    ∃ v t, microStep s = .next t ∧
      t = { s with
        trace := s.trace ++ [.rx v], ip := s.ip + 1, chip := t.chip
        idBuf := ⟨if k = 0 then v else s.idBuf.b0, if k = 1 then v else s.idBuf.b1, if k = 2 then v else s.idBuf.b2⟩ }) ∧
  (∀ (s : State) (r : Request) k, s.mode = .run → s.script[s.ip]? = some (.rxd k) → s.csN = false → s.req = some r →
    k < r.dstCap → s.transport = .live → ∃ v t, microStep s = .next t ∧
      t = { s with trace := s.trace ++ [.rx v, .dw k v], ip := s.ip + 1, chip := t.chip, dst := t.dst } ∧
      ∀ a, memRead t.dst a = if a = r.dstBase + k then some v else memRead s.dst a) ∧
  (∀ (s : State), s.mode = .run → s.transport = .stalled →
    ((∃ k, s.script[s.ip]? = some (.rxi k)) ∨ ∃ k, s.script[s.ip]? = some (.rxd k) ∧ k < dstCap s) →
    microStep s = .next s)

/-- R86, R87: POLL, one phase per step: select; opcode 0x05; one status byte into `st`; release and decide on bit 0 of `st`
alone. Not busy leaves POLL; the bound, where `POLL_LIMIT` is finite, ends the request (R89); otherwise a new iteration
follows. -/
def Obligations.PollRunsOnePhase : Prop :=
  ∀ (s : State), s.mode = .run → s.script[s.ip]? = some .poll →
    (s.pollPhase = .pCsa → s.csN = true →
      microStep s = .next { s with csN := false, trace := s.trace ++ [.sel], pollPhase := .pTx }) ∧
    (s.pollPhase = .pTx → s.csN = false →
      microStep s = .next (if s.transport = .live then
        { s with trace := s.trace ++ [.tx 0x05], pollPhase := .pRx } else s)) ∧
    (s.pollPhase = .pRx → s.csN = false → s.transport = .live →
      ∃ v t, microStep s = .next t ∧
        t = { s with trace := s.trace ++ [.rx v], st := v, pollPhase := .pCsd, chip := t.chip }) ∧
    (s.pollPhase = .pRx → s.csN = false → s.transport = .stalled → microStep s = .next s) ∧
    (s.pollPhase = .pCsd → s.csN = false →
      microStep s = .next (
        if s.st.getLsbD 0 = false then
          { s with csN := true, trace := s.trace ++ [.desel], pollPhase := .pCsa, pollCount := 0, ip := s.ip + 1 }
        else if s.pollLimit = some (s.pollCount + 1) then
          cleared { s with csN := true, trace := s.trace ++ [.desel, .done .notResponding none] }
        else
          { s with csN := true, trace := s.trace ++ [.desel], pollPhase := .pCsa, pollCount := s.pollCount + 1 }))

/-- R87: the busy test is bit 0 of the status byte and nothing else. Bit 0 clear ends the poll, bit 0 set continues it (while
`POLL_LIMIT` is unbounded), and two status bytes with the same bit 0 give the same next state, events included, but for the byte
itself. -/
def Obligations.BusyTestIsBitZeroAlone : Prop :=
  ∀ (s : State) (x y : Byte), s.mode = .run → s.script[s.ip]? = some .poll → s.pollPhase = .pCsd →
    x.getLsbD 0 = y.getLsbD 0 →
    ∃ t, microStep { s with st := x } = .next t ∧
      microStep { s with st := y } = .next { t with st := if t.mode = .run then y else 0 } ∧
      (x.getLsbD 0 = false → t.mode = .run ∧ t.ip = s.ip + 1) ∧
      (x.getLsbD 0 = true → s.pollLimit = none → t.mode = .run ∧ t.ip = s.ip ∧ t.pollPhase = .pCsa)

/-- R79: RET answers DONE(OK, id), with IDENTIFY's 24-bit identifier and a dash for every other operation, and returns
every field but `cs_n` and `fault` to its reset value. -/
def Obligations.RetCompletesTheRequest : Prop :=
  ∀ (s : State) (r : Request), s.mode = .run → s.script[s.ip]? = some .ret → s.req = some r → s.csN = true →
    microStep s = .next (cleared { s with
      trace := s.trace ++ [.done .ok (if r.op = 0 then
        some ((s.idBuf.b0.zeroExtend 24 <<< 16) ||| (s.idBuf.b1.zeroExtend 24 <<< 8) ||| s.idBuf.b2.zeroExtend 24)
        else none)] })

/-! ### The steps of a frame -/

/-- R80 (log 2): each of the seven wire rows (READ_ID, READ_DATA, PAGE_PROGRAM, SECTOR_ERASE, CHIP_ERASE, WRITE_ENABLE,
READ_STATUS_1), while its frame is the one in progress, is the micro-op at `ip`; it answers a next state at every index of
its bracket (an RXD inside the buffer), and changes only the select level, `ip`, the trace and the chip's lined-up answers; of
the host's memory only the byte at `dst + k` where the micro-op is RXD(k), and of `id_buf` only entry `k` where it is RXI(k);
READ_STATUS_1 changes also `st` and the poll fields, or ends the request (R89). -/
def Obligations.FramesRunTheirMicroOps : Prop :=
  ∀ i (s : State) u, FrameInProgress i s → s.script[s.ip]? = some u → (∀ k, u = .rxd k → k < dstCap s) →
    ∃ t, Sys2Proof.Machine.exec i s = .next t ∧ microStep s = .next t ∧
      (∀ a, (∀ k, u = .rxd k → a ≠ dstAddr s k) → memRead t.dst a = memRead s.dst a) ∧
      (i ≠ .readStatus1 → t = { s with
        csN := t.csN, ip := t.ip, idBuf := t.idBuf, dst := t.dst, trace := t.trace, chip := t.chip }) ∧
      (i ≠ .readStatus1 → (∀ k, u ≠ .rxi k) → t.idBuf = s.idBuf) ∧
      (∀ k, u = .rxi k → ∃ v, t.idBuf = ⟨if k = 0 then v else s.idBuf.b0, if k = 1 then v else s.idBuf.b1,
        if k = 2 then v else s.idBuf.b2⟩) ∧
      (i = .readStatus1 → t.mode = .run → t = { s with
        csN := t.csN, ip := t.ip, st := t.st, pollPhase := t.pollPhase, pollCount := t.pollCount, trace := t.trace
        chip := t.chip }) ∧
      (i = .readStatus1 → t.mode ≠ .run → s.pollLimit ≠ none ∧ t = cleared { s with csN := true, trace := t.trace })

/-- R75 to R77 in a frame (log 2): at its CSA each of READ_ID, READ_DATA, PAGE_PROGRAM, SECTOR_ERASE, CHIP_ERASE and
WRITE_ENABLE asserts select, at its TX it transmits, at its CSD it releases select; nothing else changes but `ip`. -/
def Obligations.FramesSelectTransmitAndRelease : Prop :=
  ∀ i (s : State), FrameInProgress i s →
    (s.script[s.ip]? = some .csa → s.csN = true →
      Sys2Proof.Machine.exec i s = .next { s with csN := false, trace := s.trace ++ [.sel], ip := s.ip + 1 }) ∧
    (∀ b, s.script[s.ip]? = some (.tx b) → s.transport = .live →
      Sys2Proof.Machine.exec i s = .next { s with trace := s.trace ++ [.tx b], ip := s.ip + 1 }) ∧
    (s.script[s.ip]? = some .csd → s.csN = false →
      Sys2Proof.Machine.exec i s = .next { s with csN := true, trace := s.trace ++ [.desel], ip := s.ip + 1 })

/-- R29, R64, R19, R37 (log 2, log 12): where the model stops. A wire row asked for outside its frame, an RXD past the
destination buffer, and an index outside the script each stop under a name of their own. -/
def Obligations.StopsAreNamed : Prop :=
  (∀ i (s : State), commandBytes i ≠ [] → ¬ FrameInProgress i s →
    Sys2Proof.Machine.exec i s = .fault .frameNotInProgress) ∧
  (∀ (s : State) k, s.script[s.ip]? = some (.rxd k) → dstCap s ≤ k →
    microStep s = .fault (.outsideDestination k)) ∧
  (∀ (s : State), s.script.length ≤ s.ip → microStep s = .fault .ipOutsideScript)

/-! ### Whole frames -/

/-- R83: WRITE_ENABLE puts `S T06 E` on the wire in three steps and changes nothing else but `ip`. -/
def Obligations.WriteEnableFrameRuns : Prop :=
  ∀ (s : State), FrameStarts .writeEnable s →
    runFrame 3 .writeEnable s = .next { s with trace := s.trace ++ [.sel, .tx 0x06, .desel], ip := s.ip + 3 }

/-- R101: CHIP_ERASE's frame is `S TC7 E`. -/
def Obligations.ChipEraseFrameRuns : Prop :=
  ∀ (s : State), FrameStarts .chipErase s →
    runFrame 3 .chipErase s = .next { s with trace := s.trace ++ [.sel, .tx 0xC7, .desel], ip := s.ip + 3 }

/-- R100: SECTOR_ERASE's frame is `S T20 T(a2) T(a1) T(a0) E`, the address as given. -/
def Obligations.SectorEraseFrameRuns : Prop :=
  ∀ (s : State) a, FrameStarts (.sectorErase a) s →
    runFrame 6 (.sectorErase a) s = .next { s with
      trace := s.trace ++ ([.sel, .tx 0x20] ++ addrEvents a ++ [.desel]), ip := s.ip + 6 }

/-- R92: READ_ID's frame is `S T9F R(b0) R(b1) R(b2) E`, the bytes into `id_buf` in received order. -/
def Obligations.ReadIdFrameRuns : Prop :=
  ∀ (s : State), FrameStarts .readId s → ∃ v0 v1 v2, Answers 3 s [v0, v1, v2] ∧
    runFrame 6 .readId s = .next { s with
      trace := s.trace ++ [.sel, .tx 0x9F, .rx v0, .rx v1, .rx v2, .desel]
      idBuf := ⟨v0, v1, v2⟩, chip := s.chip.drop 3, ip := s.ip + 6 }

/-- R94, R95: READ_DATA's frame is the command once, then `n` bytes received in one bracket, byte `i` at destination
offset `i`; every other byte of the host's memory and every other field stay as they were. -/
def Obligations.ReadDataFrameRuns : Prop :=
  ∀ (s : State) a, FrameStarts (.readData a) s → s.n ≤ dstCap s → ∃ vs t, Answers s.n s vs ∧
    runFrame (s.n + 6) (.readData a) s = .next t ∧
    t = { s with
      trace := s.trace ++ ([.sel, .tx 0x03] ++ addrEvents a ++ readEvents 0 vs ++ [.desel])
      chip := s.chip.drop s.n, ip := s.ip + s.n + 6, dst := t.dst } ∧
    (∀ i, i < s.n → memRead t.dst (dstAddr s i) = vs[i]?) ∧
    ∀ a, (∀ i, i < s.n → a ≠ dstAddr s i) → memRead t.dst a = memRead s.dst a

/-- R96: PAGE_PROGRAM's frame is the command and the first `n` payload bytes in one bracket, nothing padded. -/
def Obligations.PageProgramFrameRuns : Prop :=
  ∀ (s : State) a (r : Request), FrameStarts (.pageProgram a) s → s.req = some r → s.n ≤ r.src.length →
    runFrame (s.n + 6) (.pageProgram a) s = .next { s with
      trace := s.trace ++ ([.sel, .tx 0x02] ++ addrEvents a ++ (r.src.take s.n).map .tx ++ [.desel])
      ip := s.ip + s.n + 6 }

/-- R86, R89: one iteration of READ_STATUS_1 is `S T05 R(v) E`, followed by what bit 0 of `v` and the bound say. -/
def Obligations.ReadStatusIterationRuns : Prop :=
  ∀ (s : State), s.mode = .run → s.script[s.ip]? = some .poll → s.pollPhase = .pCsa → s.csN = true → s.transport = .live →
    ∃ v, Answers 1 s [v] ∧ runFrame 4 .readStatus1 s = .next (
      if v.getLsbD 0 = false then
        { s with
          trace := s.trace ++ [.sel, .tx 0x05, .rx v, .desel], st := v, chip := s.chip.drop 1, pollCount := 0
          ip := s.ip + 1 }
      else if s.pollLimit = some (s.pollCount + 1) then
        cleared { s with
          trace := s.trace ++ [.sel, .tx 0x05, .rx v, .desel, .done .notResponding none], chip := s.chip.drop 1 }
      else
        { s with
          trace := s.trace ++ [.sel, .tx 0x05, .rx v, .desel], st := v, chip := s.chip.drop 1
          pollCount := s.pollCount + 1 })

/-! ### Acceptance and faults -/

/-- R105, R107, R108: the acceptance step, every branch in its order: never in FAULTED; BUSY_REQUEST in RUN; ILLEGAL_OP;
DST_TOO_SMALL; SRC_TOO_SHORT; otherwise the request is latched. -/
def Obligations.AcceptanceStep : Prop :=
  ∀ (r : Request) (s : State), ∃ t, Sys2Proof.Machine.exec (decodeRequest r) s = .next t ∧ sansRecord s t =
    if s.mode = .faulted then s
    else if s.mode = .run then faultEntry .busyRequest s
    else if r.op = 5 ∨ r.op = 6 ∨ r.op = 7 then faultEntry .illegalOp s
    else if r.op = 1 ∧ r.dstCap < r.len.toNat then faultEntry .dstTooSmall s
    else if r.op = 2 ∧ r.src.length < min r.len.toNat 256 then faultEntry .srcTooShort s
    else { s with req := some r, n := lengthOf r, script := scriptOf r, ip := 0, mode := .run }

/-- R106, column "recorded" (log 9): a fault records the presented request and, with a request in progress, its `ip`; a
presentation that raises no fault leaves the record as it is. -/
def Obligations.FaultsRecordTheRequest : Prop :=
  ∀ (r : Request) (s t : State), Sys2Proof.Machine.exec (decodeRequest r) s = .next t →
    (s.mode ≠ .faulted → t.mode = .faulted →
      t.faultReq = some r ∧ t.faultIp = if s.mode = .run then some s.ip else none) ∧
    (s.mode = .faulted ∨ t.mode ≠ .faulted → t.faultReq = s.faultReq ∧ t.faultIp = s.faultIp)

/-- R92, R94: an IDENTIFY or READ presented in IDLE starts the script the spec writes out, and changes nothing but the
latched fields: no bus event, no flag, no byte of memory. -/
def Obligations.ReadRequestsStartTheirScripts : Prop :=
  ∀ (f : Fields) (s : State), s.mode = .idle →
    Sys2Proof.Machine.exec (.reqIdentify f) s = .next { s with
      req := some { toFields := f, op := 0 }, n := 0, ip := 0, mode := .run
      script := [.csa, .tx 0x9F, .rxi 0, .rxi 1, .rxi 2, .csd, .ret] } ∧
    (f.len.toNat ≤ f.dstCap → Sys2Proof.Machine.exec (.reqRead f) s = .next { s with
      req := some { toFields := f, op := 1 }, n := f.len.toNat, ip := 0, mode := .run
      script := [.csa, .tx 0x03, .tx (f.addr.extractLsb' 16 8), .tx (f.addr.extractLsb' 8 8),
        .tx (f.addr.extractLsb' 0 8)] ++ (List.range f.len.toNat).map .rxd ++ [.csd, .ret] })

/-- R96, R100, R101, R84: a mutating request presented in IDLE starts the script the spec writes out, with the
write-enable first, and changes nothing but the latched fields. -/
def Obligations.MutatingRequestsStartTheirScripts : Prop :=
  ∀ (f : Fields) (s : State), s.mode = .idle →
    (min f.len.toNat 256 ≤ f.src.length → Sys2Proof.Machine.exec (.reqPageProgram f) s = .next { s with
      req := some { toFields := f, op := 2 }, n := min f.len.toNat 256, ip := 0, mode := .run
      script := [.csa, .tx 0x06, .csd, .csa, .tx 0x02, .tx (f.addr.extractLsb' 16 8), .tx (f.addr.extractLsb' 8 8),
        .tx (f.addr.extractLsb' 0 8)] ++ (f.src.take (min f.len.toNat 256)).map .tx ++ [.csd, .poll, .ret] }) ∧
    Sys2Proof.Machine.exec (.reqSectorErase f) s = .next { s with
      req := some { toFields := f, op := 3 }, n := 0, ip := 0, mode := .run
      script := [.csa, .tx 0x06, .csd, .csa, .tx 0x20, .tx (f.addr.extractLsb' 16 8), .tx (f.addr.extractLsb' 8 8),
        .tx (f.addr.extractLsb' 0 8), .csd, .poll, .ret] } ∧
    Sys2Proof.Machine.exec (.reqChipErase f) s = .next { s with
      req := some { toFields := f, op := 4 }, n := 0, ip := 0, mode := .run
      script := [.csa, .tx 0x06, .csd, .csa, .tx 0xC7, .csd, .poll, .ret] }

/-- R62: a reserved code presented in IDLE raises ILLEGAL_OP with no bus event, whatever its other fields are. -/
def Obligations.ReservedCodesRaiseIllegalOp : Prop :=
  ∀ (f : Fields) (s : State) i, (i = .reqReserved5 f ∨ i = .reqReserved6 f ∨ i = .reqReserved7 f) →
    s.mode = .idle → s.csN = true →
    ∃ t, Sys2Proof.Machine.exec i s = .next t ∧
      sansRecord s t = { s with trace := s.trace ++ [.fault .illegalOp], fault := some .illegalOp, mode := .faulted }

/-- R63: the fields an operation does not use change nothing: acceptance gives the same state, and differs only in the
request it keeps. The place of a READ's buffer (log 8) is used by its RXD steps alone, so acceptance does not depend on it. -/
def Obligations.UnusedFieldsAreIgnored : Prop :=
  ∀ (f g : Fields) (s : State) i j,
    (i = .reqIdentify f ∧ j = .reqIdentify g) ∨ (i = .reqChipErase f ∧ j = .reqChipErase g) ∨
      (i = .reqSectorErase f ∧ j = .reqSectorErase g ∧ f.addr = g.addr) ∨
      (i = .reqRead f ∧ j = .reqRead g ∧ f.addr = g.addr ∧ f.len = g.len ∧ f.dstCap = g.dstCap) ∨
      (i = .reqPageProgram f ∧ j = .reqPageProgram g ∧ f.addr = g.addr ∧ f.len = g.len ∧ f.src = g.src) →
    ∃ t u, Sys2Proof.Machine.exec i s = .next t ∧ Sys2Proof.Machine.exec j s = .next u ∧
      u = { t with req := u.req, faultReq := u.faultReq }

/-- R97: the payload is the first `min(len, 256)` bytes; bytes past it are never read: two payloads that agree there give
the same length and script, and are both accepted. -/
def Obligations.PayloadIsTruncatedAt256 : Prop :=
  ∀ (f g : Fields), f.addr = g.addr → f.len = g.len →
    f.src.take (min f.len.toNat 256) = g.src.take (min f.len.toNat 256) →
    min f.len.toNat 256 ≤ f.src.length →
    lengthOf (requestOf 2 f) = min f.len.toNat 256 ∧ lengthOf (requestOf 2 g) = min f.len.toNat 256 ∧
    scriptOf (requestOf 2 f) = scriptOf (requestOf 2 g) ∧
    accepted (requestOf 2 f) = true ∧ accepted (requestOf 2 g) = true ∧
    (scriptOf (requestOf 2 f)).length = min f.len.toNat 256 + 11

/-- R25: the fault record is written only by fault entry, and once set is never cleared by any step, reset included. -/
def Obligations.FaultRecordIsSticky : Prop :=
  ∀ (s : State) (t : State), Sys2Proof.Machine.step s = .next t →
    (s.fault ≠ none → t.fault ≠ none) ∧
    (t.fault ≠ s.fault → ∃ c, sansRecord s t = faultEntry c { s with agenda := t.agenda })

/-- R109: in FAULTED no step but reset changes anything of the engine, emits an event or writes a byte; reset goes to IDLE
and keeps the fault. -/
def Obligations.OnlyResetLeavesFaulted : Prop :=
  ∀ (s : State) (t : State), s.mode = .faulted → Sys2Proof.Machine.step s = .next t →
    ((∃ more, s.agenda = .reset :: more) ∧ t.mode = .idle ∧ t.fault = s.fault) ∨
      t = { s with agenda := t.agenda, transport := t.transport }

/-! ### Reset -/

/-- R121: the reset input, from every state and in every mode: `E` if select was asserted, `RESET`, and every field but `fault`
at its reset value; no DONE. -/
def Obligations.ResetInputEffect : Prop :=
  ∀ (s : State) more, s.agenda = .reset :: more →
    ∃ t, Sys2Proof.Machine.step s = .next t ∧ t = { s with
      csN := true, mode := .idle, req := none, n := 0, script := [], ip := 0, idBuf := ⟨0, 0, 0⟩, st := 0
      pollPhase := .pCsa, pollCount := 0
      trace := s.trace ++ (if s.csN = true then [.reset] else [.desel, .reset])
      faultReq := t.faultReq, faultIp := t.faultIp, dst := t.dst, pollLimit := t.pollLimit, chip := t.chip
      transport := t.transport, agenda := t.agenda }

/-- Log 9, log 19: the outside world stays as it is at a reset, and the environment's own moves change the transport and
nothing else. -/
def Obligations.OutsideWorldStays : Prop :=
  (∀ (s : State) more, s.agenda = .reset :: more → ∃ t, Sys2Proof.Machine.step s = .next t ∧
      t.dst = s.dst ∧ t.chip = s.chip ∧ t.transport = s.transport ∧ t.pollLimit = s.pollLimit ∧ t.agenda = more ∧
      t.faultReq = s.faultReq ∧ t.faultIp = s.faultIp) ∧
    (∀ (s : State) more, s.agenda = .stall :: more →
      Sys2Proof.Machine.step s = .next { s with agenda := more, transport := .stalled }) ∧
    (∀ (s : State) more, s.agenda = .resume :: more →
      Sys2Proof.Machine.step s = .next { s with agenda := more, transport := .live })

/-- R122: the table, both columns: the values after power-on, and the values after a reset. -/
def Obligations.ResetValuesOfTheTable : Prop :=
  (State.reset.csN = true ∧ State.reset.mode = .idle ∧ State.reset.req = none ∧ State.reset.n = 0 ∧
    State.reset.script = [] ∧ State.reset.ip = 0 ∧ State.reset.idBuf = ⟨0x00, 0x00, 0x00⟩ ∧ State.reset.st = 0x00 ∧
    State.reset.pollPhase = .pCsa ∧ State.reset.pollCount = 0 ∧ State.reset.fault = none) ∧
  ∀ s : State, (resetInput s).csN = true ∧ (resetInput s).mode = .idle ∧ (resetInput s).req = none ∧
    (resetInput s).n = 0 ∧ (resetInput s).script = [] ∧ (resetInput s).ip = 0 ∧
    (resetInput s).idBuf = ⟨0x00, 0x00, 0x00⟩ ∧ (resetInput s).st = 0x00 ∧ (resetInput s).pollPhase = .pCsa ∧
    (resetInput s).pollCount = 0 ∧ (resetInput s).fault = s.fault

/-! ### Transport -/

/-- R82: at an exchange the transport never completes the engine stays, for any number of steps, with its state
unchanged, no event and no fault. -/
def Obligations.StalledTransportHangs : Prop :=
  ∀ (s : State) k, EngineAlone s → s.mode = .run → s.transport = .stalled → AtExchange s →
    runSteps k s = .next s

/-! ### The invariant and the whole machine -/

/-- The power-on state meets the invariant and its trace keeps the bracket discipline (R122, R69). -/
def Obligations.PowerOnMeetsTheInvariant : Prop := EngineInv State.reset ∧ BusDisciplined State.reset

/-- R19, R20, R23, R26, R37, R69: every step keeps the invariant: an accepted request's script, length and index, the
select level of the micro-op at `ip`, the poll fields at rest outside POLL, the poll count below a finite bound (R89), no request
state in IDLE, select high in FAULTED, and the destination memory in its canonical form. -/
def Obligations.EveryStepKeepsTheInvariant : Prop :=
  ∀ (s : State) (t : State), EngineInv s → Sys2Proof.Machine.step s = .next t → EngineInv t

/-- R106, R19, R37: a machine that meets the invariant never stops: whatever the outside world does next, the step
answers a next state. -/
def Obligations.NoStepStopsUnderTheInvariant : Prop :=
  ∀ (s : State), EngineInv s → ∃ t, Sys2Proof.Machine.step s = .next t

/-- R69, R71, R72: every step keeps the bracket discipline of the trace. -/
def Obligations.EveryStepKeepsTheBracketDiscipline : Prop :=
  ∀ (s : State) (t : State), EngineInv s → BusDisciplined s → Sys2Proof.Machine.step s = .next t → BusDisciplined t

/-- R45, R75 to R80, R86, R89, R107, R121: a step of any agent appends to the trace, at most one bus event and at most two events
in all. -/
def Obligations.AtMostOneBusEventPerStep : Prop :=
  ∀ (s : State) (t : State), Sys2Proof.Machine.step s = .next t →
    ∃ es, t.trace = s.trace ++ es ∧ (es.filter isBus).length ≤ 1 ∧ es.length ≤ 2

/-- R37: a byte of a destination buffer changes only in the engine's RXD step of its offset, and then it is the byte just
received. Every other step, of every agent, leaves every byte of every buffer as it reads. -/
def Obligations.DestinationChangesOnlyByRxd : Prop :=
  ∀ (s : State) (t : State) a, Sys2Proof.Machine.step s = .next t → memRead t.dst a ≠ memRead s.dst a →
    ∃ r i v, s.mode = .run ∧ s.script[s.ip]? = some (.rxd i) ∧ s.req = some r ∧ i < r.dstCap ∧ a = r.dstBase + i ∧
      memRead t.dst a = some v ∧ t.trace = s.trace ++ [.rx v, .dw i v]

/-- R31, R104: a step answers at most one DONE, exactly when it takes the engine from RUN to IDLE without a reset; the
result is OK unless `POLL_LIMIT` is finite. -/
def Obligations.OneDonePerCompletedRequest : Prop :=
  ∀ (s : State) (t : State), Sys2Proof.Machine.step s = .next t →
    (t.trace.filter isDone).length = (s.trace.filter isDone).length +
      (if s.mode = .run ∧ t.mode = .idle ∧ s.agenda.head? ≠ some .reset then 1 else 0) ∧
    (s.pollLimit = none → Event.done .notResponding none ∈ t.trace → Event.done .notResponding none ∈ s.trace)

/-- R84, R91: IDENTIFY and READ never poll and never send write-enable. -/
def Obligations.ReadRequestsNeverPollNorEnable : Prop :=
  ∀ (s : State) (r : Request), EngineInv s → s.req = some r → s.mode = .run → (r.op = 0 ∨ r.op = 1) →
    pollState s = .idle ∧ fetchFrame s ≠ some .writeEnable ∧ fetchFrame s ≠ some .readStatus1

/-- R92-R101: the sizes of the scripts and the places of POLL and RET. -/
def Obligations.ScriptSizesAndPollIndex : Prop :=
  ∀ f : Fields,
    (scriptOf (requestOf 0 f)).length = 7 ∧
    (scriptOf (requestOf 1 f)).length = f.len.toNat + 7 ∧
    (min f.len.toNat 256 ≤ f.src.length →
      (scriptOf (requestOf 2 f)).length = min f.len.toNat 256 + 11 ∧
      ∀ k, (scriptOf (requestOf 2 f))[k]? = some .poll ↔ k = min f.len.toNat 256 + 9) ∧
    (scriptOf (requestOf 3 f)).length = 11 ∧ (∀ k, (scriptOf (requestOf 3 f))[k]? = some .poll ↔ k = 9) ∧
    (scriptOf (requestOf 4 f)).length = 8 ∧ (∀ k, (scriptOf (requestOf 4 f))[k]? = some .poll ↔ k = 6) ∧
    ∀ op, accepted (requestOf op f) = true → (scriptOf (requestOf op f)).getLast? = some .ret

/-! ### Whole requests -/

/-- R92, R93: an IDENTIFY from rest: `S T9F R(b0) R(b1) R(b2) E DONE(OK, id)` in one acceptance and seven engine steps,
and the engine is at rest again with nothing else changed. -/
def Obligations.IdentifyRequestRuns : Prop :=
  ∀ (s : State) (f : Fields), AtRest s → s.mode = .idle → s.transport = .live → s.agenda = [.request (requestOf 0 f)] →
    ∃ v0 v1 v2, Answers 3 s [v0, v1, v2] ∧
      runSteps 8 s = .next { s with
        agenda := [], chip := s.chip.drop 3
        trace := s.trace ++
          [.sel, .tx 0x9F, .rx v0, .rx v1, .rx v2, .desel, .done .ok (some ((v0.zeroExtend 24 <<< 16) ||| (v1.zeroExtend 24 <<< 8) ||| v2.zeroExtend 24))] }

/-- R94, R131: a READ from rest, for every address, length and destination: the command once, `n` bytes received into offsets
0..n-1 of its buffer in one bracket, DONE(OK, -) after the last write; the rest of the host's memory (an earlier request's buffer
elsewhere, log 8) and of the state as before. With no fault on record the run is final, and its result is the trace and the
request's buffer. -/
def Obligations.ReadRequestRuns : Prop :=
  ∀ (s : State) (f : Fields), AtRest s → s.mode = .idle → s.transport = .live → s.agenda = [.request (requestOf 1 f)] →
    f.len.toNat ≤ f.dstCap →
    ∃ vs t, Answers f.len.toNat s vs ∧ runSteps (f.len.toNat + 8) s = .next t ∧
      t = { s with
        agenda := [], chip := s.chip.drop f.len.toNat, dst := t.dst
        trace := s.trace ++
          ([.sel, .tx 0x03] ++ addrEvents f.addr ++ readEvents 0 vs ++ [.desel, .done .ok none]) } ∧
      (∀ i, i < f.len.toNat → memRead t.dst (f.dstBase + i) = vs[i]?) ∧
      (∀ a, (∀ i, i < f.len.toNat → a ≠ f.dstBase + i) → memRead t.dst a = memRead s.dst a) ∧
      (s.fault = none → FinalRun (f.len.toNat + 8) s t ∧ runResult s t = {
        trace := t.trace
        destinations := [(List.range f.dstCap).map fun i =>
          if i < f.len.toNat then vs[i]? else memRead s.dst (f.dstBase + i)] })

/-- R95: under the chip assumption `ChipReadAutoInc`, a READ delivers the flash bytes from `addr` on, as far as the chip
reaches. -/
def Obligations.ReadDeliversTheFlashBytes : Prop :=
  ∀ (flash : Nat → Byte) s f vs more, AtRest s → s.mode = .idle → s.transport = .live →
    s.agenda = [.request (requestOf 1 f)] → f.len.toNat ≤ f.dstCap →
    s.chip = vs ++ more → vs.length = f.len.toNat → ChipReadAutoInc flash f.addr vs →
    ∃ t, runSteps (f.len.toNat + 8) s = .next t ∧
      ∀ i, i < f.len.toNat → f.addr.toNat + i < Config.chipBytes →
        memRead t.dst (f.dstBase + i) = some (flash (f.addr.toNat + i))

/-- R96, R102: a PAGE_PROGRAM from rest with `bs` busy status bytes and then one that is not busy: write-enable, the
command with the payload in one bracket, one poll per status byte, DONE(OK, -). A finite bound must exceed the number of
busy bytes (R89). -/
def Obligations.PageProgramRequestRuns : Prop :=
  ∀ (s : State) (f : Fields) (bs : List Byte) v more, AtRest s → s.mode = .idle → s.transport = .live → s.agenda = [.request (requestOf 2 f)] →
    min f.len.toNat 256 ≤ f.src.length → s.chip = bs ++ v :: more →
    (∀ b ∈ bs, b.getLsbD 0 = true) → v.getLsbD 0 = false → (∀ l, s.pollLimit = some l → bs.length < l) →
    runSteps (1 + (min f.len.toNat 256 + 10 + 4 * (bs.length + 1))) s = .next { s with
      agenda := [], chip := more
      trace := s.trace ++ ([.sel, .tx 0x06, .desel] ++
        ([.sel, .tx 0x02] ++ addrEvents f.addr ++ (f.src.take (min f.len.toNat 256)).map .tx ++ [.desel]) ++
        pollEvents (bs ++ [v]) ++ [.done .ok none]) }

/-- R100, R102: the same of a SECTOR_ERASE, whose address is sent as given. -/
def Obligations.SectorEraseRequestRuns : Prop :=
  ∀ (s : State) (f : Fields) (bs : List Byte) v more, AtRest s → s.mode = .idle → s.transport = .live → s.agenda = [.request (requestOf 3 f)] →
    s.chip = bs ++ v :: more →
    (∀ b ∈ bs, b.getLsbD 0 = true) → v.getLsbD 0 = false → (∀ l, s.pollLimit = some l → bs.length < l) →
    runSteps (1 + (10 + 4 * (bs.length + 1))) s = .next { s with
      agenda := [], chip := more
      trace := s.trace ++ ([.sel, .tx 0x06, .desel] ++ ([.sel, .tx 0x20] ++ addrEvents f.addr ++ [.desel]) ++
        pollEvents (bs ++ [v]) ++ [.done .ok none]) }

/-- R101, R102: the same of a CHIP_ERASE. -/
def Obligations.ChipEraseRequestRuns : Prop :=
  ∀ (s : State) (f : Fields) (bs : List Byte) v more, AtRest s → s.mode = .idle → s.transport = .live → s.agenda = [.request (requestOf 4 f)] →
    s.chip = bs ++ v :: more →
    (∀ b ∈ bs, b.getLsbD 0 = true) → v.getLsbD 0 = false → (∀ l, s.pollLimit = some l → bs.length < l) →
    runSteps (1 + (7 + 4 * (bs.length + 1))) s = .next { s with
      agenda := [], chip := more
      trace := s.trace ++ ([.sel, .tx 0x06, .desel] ++ [.sel, .tx 0xC7, .desel] ++
        pollEvents (bs ++ [v]) ++ [.done .ok none]) }

/-- R89: with `POLL_LIMIT = l` and `l` busy status bytes, a CHIP_ERASE makes exactly `l` iterations and ends with
DONE(NOT_RESPONDING, -), select high and the engine at rest. -/
def Obligations.BoundedPollGivesUp : Prop :=
  ∀ (s : State) (f : Fields) (bs : List Byte) more, AtRest s → s.mode = .idle → s.transport = .live → s.agenda = [.request (requestOf 4 f)] →
    s.chip = bs ++ more → (∀ b ∈ bs, b.getLsbD 0 = true) → bs ≠ [] → s.pollLimit = some bs.length →
    runSteps (1 + (6 + 4 * bs.length)) s = .next { s with
      agenda := [], chip := more
      trace := s.trace ++ ([.sel, .tx 0x06, .desel] ++ [.sel, .tx 0xC7, .desel] ++
        pollEvents bs ++ [.done .notResponding none]) }

/-- R110 (1), R85: with `POLL_LIMIT` unbounded, a chip that stays busy keeps the engine in POLLING for any number of
iterations, with no DONE. -/
def Obligations.BusyChipKeepsPolling : Prop :=
  ∀ (s : State) (bs : List Byte) more, EngineAlone s → s.mode = .run → s.script[s.ip]? = some .poll → s.pollPhase = .pCsa → s.csN = true →
    s.transport = .live → s.pollLimit = none → s.chip = bs ++ more → (∀ b ∈ bs, b.getLsbD 0 = true) →
    ∃ t, runSteps (4 * bs.length) s = .next t ∧ pollState t = .polling ∧
      t.ip = s.ip ∧ t.script = s.script ∧ t.pollPhase = .pCsa ∧ t.csN = true ∧ t.chip = more ∧ t.dst = s.dst ∧
      t.trace = s.trace ++ pollEvents bs

/-! ### Words of the opcode table -/

/-- R59, R61 (log 3, log 4): every word of the opcode table that stands for an instruction, of all fifteen rows and with every
address, placed in the power-on state, is fetched and run by the very next step, which answers a next state; and a word of each
row stands for that row's instruction. -/
def Obligations.TableWordsRunNext : Prop :=
  (∀ nbits w i, decodeTableWord nbits w = some i →
    Sys2Proof.Machine.step (State.reset.withFetchWord nbits w) =
        Sys2Proof.Machine.exec i { State.reset.withFetchWord nbits w with agenda := [] } ∧
      ∃ t, Sys2Proof.Machine.step (State.reset.withFetchWord nbits w) = .next t) ∧
    decodeTableWord 8 0x9F = some .readId ∧ decodeTableWord 32 0x00100003 = some (.readData 0x001000) ∧
    decodeTableWord 32 0x00010002 = some (.pageProgram 0x000100) ∧
    decodeTableWord 32 0xEFCDAB20 = some (.sectorErase 0xABCDEF) ∧ decodeTableWord 8 0xC7 = some .chipErase ∧
    decodeTableWord 8 0x06 = some .writeEnable ∧ decodeTableWord 8 0x05 = some .readStatus1 ∧
    decodeTableWord 3 0b000 = some (.reqIdentify {}) ∧ decodeTableWord 3 0b001 = some (.reqRead {}) ∧
    decodeTableWord 3 0b010 = some (.reqPageProgram {}) ∧ decodeTableWord 3 0b011 = some (.reqSectorErase {}) ∧
    decodeTableWord 3 0b100 = some (.reqChipErase {}) ∧ decodeTableWord 3 0b101 = some (.reqReserved5 {}) ∧
    decodeTableWord 3 0b110 = some (.reqReserved6 {}) ∧ decodeTableWord 3 0b111 = some (.reqReserved7 {})

/-! ### Liveness -/

/-- R132: a request in progress, from any state of it. Under `TransportLive` and `ChipEventuallyReady`, with `POLL_LIMIT`
unbounded, it stays in RUN until a step answers DONE(OK, ...), unless a reset or a BUSY_REQUEST cuts it first; under
`TransportLive` alone, with a finite `POLL_LIMIT`, until a step answers DONE. -/
def Obligations.AcceptedRequestsComplete : Prop :=
  ∀ (s : State), EngineInv s → s.mode = .run → TransportLive s →
    (s.pollLimit = none → ChipEventuallyReady s →
      Until (fun t => t.mode = .run) (fun t => CutComes t ∨ DoneComes (fun r => r = .ok) t) s) ∧
    (s.pollLimit ≠ none →
      Until (fun t => t.mode = .run) (fun t => CutComes t ∨ DoneComes (fun _ => True) t) s)
end

