-- ==== Sys2Proof/Laws/Encoding.lean ====
section
/-! SUPPORT. The address framer and its inverse (30_encoding.md R57, 20_memory.md R41, 42_read_ops.md R93), and what decoding
an address says of the bytes. -/

namespace Sys2Proof

/-- Three bytes as one number, most significant first. -/
theorem joinBytes_toNat (x y z : Byte) : (joinBytes x y z).toNat = x.toNat * 65536 + y.toNat * 256 + z.toNat := by
  have hx := x.isLt
  have hy := y.isLt
  have hz := z.isLt
  rw [joinBytes, BitVec.toNat_or, BitVec.toNat_or, BitVec.toNat_shiftLeft, BitVec.toNat_shiftLeft, BitVec.toNat_setWidth,
    BitVec.toNat_setWidth, BitVec.toNat_setWidth, Nat.shiftLeft_eq, Nat.shiftLeft_eq]
  have d1 := Nat.shiftLeft_add_eq_or_of_lt (a := x.toNat) (b := y.toNat * 2 ^ 8) (i := 16) (by omega)
  have d2 := Nat.shiftLeft_add_eq_or_of_lt (a := x.toNat * 2 ^ 8 + y.toNat) (b := z.toNat) (i := 8) (by omega)
  rw [Nat.shiftLeft_eq] at d1 d2
  simp only [Nat.reducePow] at *
  have e1 : x.toNat % 16777216 * 65536 % 16777216 = x.toNat * 65536 := by clear d1 d2; omega
  have e2 : y.toNat % 16777216 * 256 % 16777216 = y.toNat * 256 := by clear d1 d2 e1; omega
  have e3 : z.toNat % 16777216 = z.toNat := by clear d1 d2 e1 e2; omega
  have d3 : x.toNat * 65536 + y.toNat * 256 = (x.toNat * 256 + y.toNat) * 256 := by clear d1 d2 e1 e2 e3; omega
  rw [e1, e2, e3, ← d1, d3, ← d2]

/-- Each byte stands at its own place in the joined value. -/
theorem extractLsb_joinBytes (x y z : Byte) : (joinBytes x y z).extractLsb' 16 8 = x ∧ (joinBytes x y z).extractLsb' 8 8 = y ∧
    (joinBytes x y z).extractLsb' 0 8 = z := by
  have hx := x.isLt
  have hy := y.isLt
  have hz := z.isLt
  refine ⟨?_, ?_, ?_⟩ <;> apply BitVec.eq_of_toNat_eq <;>
    rw [BitVec.extractLsb'_toNat, joinBytes_toNat, Nat.shiftRight_eq_div_pow] <;> omega

/-- The three bytes of an address, joined again, are the address. -/
theorem joinBytes_addrBytes (a : Addr) :
    joinBytes (a.extractLsb' 16 8) (a.extractLsb' 8 8) (a.extractLsb' 0 8) = a := by
  have := a.isLt
  apply BitVec.eq_of_toNat_eq
  simp only [joinBytes_toNat, BitVec.extractLsb'_toNat, Nat.shiftRight_eq_div_pow]
  omega

/-- A decoded address is the three bytes that stand before the rest. -/
theorem decodeAddress_ok {mk : Addr → Instr} {b : Byte} {bs rest : List Byte} {i : Instr} (h : decodeAddress mk b bs = .ok (i, rest)) :
    ∃ a, i = mk a ∧ bs = addrBytes a ++ rest := by
  unfold decodeAddress at h
  split at h
  · rename_i a2 a1 a0 r
    cases h
    refine ⟨joinBytes a2 a1 a0, rfl, ?_⟩
    obtain ⟨e1, e2, e3⟩ := extractLsb_joinBytes a2 a1 a0
    simp [addrBytes, e1, e2, e3]
  · cases h

/-- An address followed by more bytes decodes to itself. -/
theorem decodeAddress_addrBytes (mk : Addr → Instr) (b : Byte) (a : Addr) (rest : List Byte) :
    decodeAddress mk b (addrBytes a ++ rest) = .ok (mk a, rest) := by
  simp [addrBytes, decodeAddress, joinBytes_addrBytes]

/-- The eight values of the operation field (R61, R62). -/
theorem op_cases (op : OpField) : op = 0 ∨ op = 1 ∨ op = 2 ∨ op = 3 ∨ op = 4 ∨ op = 5 ∨ op = 6 ∨ op = 7 := by
  revert op; decide

end Sys2Proof
end

