-- ==== Sys2Proof/Laws/Run.lean ====
section
/-! SUPPORT. Runs of the machine, one step and several, and the same behind the host's interface. -/

namespace Sys2Proof.Machine

@[simp] theorem runSteps_zero (s : State) : runSteps 0 s = .next s := rfl

/-- A run's first step. -/
theorem runSteps_next {s t : State} (k : Nat) (h : step s = .next t) : runSteps (k + 1) s = runSteps k t := by
  simp only [runSteps, h]

theorem runSteps_one {s t : State} (h : step s = .next t) : runSteps 1 s = .next t := runSteps_next 0 h

/-- A run goes on where a shorter one ends. -/
theorem runSteps_add {s t : State} {j : Nat} (k : Nat) (h : runSteps j s = .next t) :
    runSteps (j + k) s = runSteps k t := by
  induction j generalizing s with
  | zero => cases h; rw [Nat.zero_add]
  | succ j ih =>
    rw [runSteps] at h
    rw [Nat.succ_add, runSteps]
    cases hs : step s with
    | next u => rw [hs] at h; exact ih h
    | fault r => rw [hs] at h; cases h
    | refused r => rw [hs] at h; cases h

/-! ### Reached states -/

theorem reaches_refl (s : State) : Reaches s s := ⟨0, rfl⟩

theorem reaches_step {s t u : State} (hs : step s = .next t) (h : Reaches t u) : Reaches s u := by
  obtain ⟨k, h⟩ := h
  exact ⟨k + 1, (runSteps_next k hs).trans h⟩

theorem reaches_trans {s t u : State} (h : Reaches s t) (h' : Reaches t u) : Reaches s u := by
  obtain ⟨j, h⟩ := h
  obtain ⟨k, h'⟩ := h'
  exact ⟨j + k, (runSteps_add k h).trans h'⟩

/-- A reached state is the first one, or is reached from its successor. -/
theorem reaches_cases {s u : State} (h : Reaches s u) : u = s ∨ ∃ t, step s = .next t ∧ Reaches t u := by
  obtain ⟨k, h⟩ := h
  cases k with
  | zero => cases h; exact .inl rfl
  | succ k =>
    rw [runSteps] at h
    cases hs : step s with
    | next t => rw [hs] at h; exact .inr ⟨t, rfl, k, h⟩
    | fault r => rw [hs] at h; cases h
    | refused r => rw [hs] at h; cases h

/-- What holds now and is kept by every step holds of every reached state. -/
theorem reaches_induct {p : State → Prop} (hstep : ∀ s t, p s → step s = .next t → p t) {s u : State} (h : Reaches s u)
    (hs : p s) : p u := by
  obtain ⟨k, h⟩ := h
  induction k generalizing s with
  | zero => cases h; exact hs
  | succ k ih =>
    rcases reaches_cases ⟨k + 1, h⟩ with rfl | ⟨t, ht, -⟩
    · exact hs
    · exact ih (hstep s t hs ht) ((runSteps_next k ht).symm.trans h)

/-- The host's run of the machine is the same run. -/
theorem core_run (k : Nat) (s : State) : Host.Core.run Sys2Proof.core k s = runSteps k s := by
  induction k generalizing s with
  | zero => exact Host.Core.run.eq_1 Sys2Proof.core s
  | succ k ih =>
    have e := Host.Core.run.eq_2 Sys2Proof.core s k
    rw [runSteps]
    cases hs : step s with
    | next t =>
      rw [show Sys2Proof.core.step s = .next t from hs] at e
      exact e.trans (ih t)
    | fault r =>
      rw [show Sys2Proof.core.step s = .fault r from hs] at e
      exact e
    | refused r =>
      rw [show Sys2Proof.core.step s = .refused r from hs] at e
      exact e

end Sys2Proof.Machine
end

