-- ==== Sys2Proof/Laws/State.lean ====
section
/-! SUPPORT. One lemma per field per update of the state (Machine/Ops.lean), each true by `rfl` or by the two cases of the
select line, so that no proof unfolds a record update. -/

namespace Sys2Proof.Machine

/-! ### emit -/

@[simp] theorem emit_csN (e : Event) (s : State) : (emit e s).csN = s.csN := rfl
@[simp] theorem emit_mode (e : Event) (s : State) : (emit e s).mode = s.mode := rfl
@[simp] theorem emit_req (e : Event) (s : State) : (emit e s).req = s.req := rfl
@[simp] theorem emit_n (e : Event) (s : State) : (emit e s).n = s.n := rfl
@[simp] theorem emit_script (e : Event) (s : State) : (emit e s).script = s.script := rfl
@[simp] theorem emit_ip (e : Event) (s : State) : (emit e s).ip = s.ip := rfl
@[simp] theorem emit_idBuf (e : Event) (s : State) : (emit e s).idBuf = s.idBuf := rfl
@[simp] theorem emit_st (e : Event) (s : State) : (emit e s).st = s.st := rfl
@[simp] theorem emit_pollPhase (e : Event) (s : State) : (emit e s).pollPhase = s.pollPhase := rfl
@[simp] theorem emit_pollCount (e : Event) (s : State) : (emit e s).pollCount = s.pollCount := rfl
@[simp] theorem emit_fault (e : Event) (s : State) : (emit e s).fault = s.fault := rfl
@[simp] theorem emit_faultReq (e : Event) (s : State) : (emit e s).faultReq = s.faultReq := rfl
@[simp] theorem emit_faultIp (e : Event) (s : State) : (emit e s).faultIp = s.faultIp := rfl
@[simp] theorem emit_dst (e : Event) (s : State) : (emit e s).dst = s.dst := rfl
@[simp] theorem emit_trace (e : Event) (s : State) : (emit e s).trace = s.trace ++ [e] := rfl
@[simp] theorem emit_pollLimit (e : Event) (s : State) : (emit e s).pollLimit = s.pollLimit := rfl
@[simp] theorem emit_chip (e : Event) (s : State) : (emit e s).chip = s.chip := rfl
@[simp] theorem emit_transport (e : Event) (s : State) : (emit e s).transport = s.transport := rfl
@[simp] theorem emit_agenda (e : Event) (s : State) : (emit e s).agenda = s.agenda := rfl

/-! ### advance -/

@[simp] theorem advance_csN (s : State) : (advance s).csN = s.csN := rfl
@[simp] theorem advance_mode (s : State) : (advance s).mode = s.mode := rfl
@[simp] theorem advance_req (s : State) : (advance s).req = s.req := rfl
@[simp] theorem advance_n (s : State) : (advance s).n = s.n := rfl
@[simp] theorem advance_script (s : State) : (advance s).script = s.script := rfl
@[simp] theorem advance_ip (s : State) : (advance s).ip = s.ip + 1 := rfl
@[simp] theorem advance_idBuf (s : State) : (advance s).idBuf = s.idBuf := rfl
@[simp] theorem advance_st (s : State) : (advance s).st = s.st := rfl
@[simp] theorem advance_pollPhase (s : State) : (advance s).pollPhase = s.pollPhase := rfl
@[simp] theorem advance_pollCount (s : State) : (advance s).pollCount = s.pollCount := rfl
@[simp] theorem advance_fault (s : State) : (advance s).fault = s.fault := rfl
@[simp] theorem advance_faultReq (s : State) : (advance s).faultReq = s.faultReq := rfl
@[simp] theorem advance_faultIp (s : State) : (advance s).faultIp = s.faultIp := rfl
@[simp] theorem advance_dst (s : State) : (advance s).dst = s.dst := rfl
@[simp] theorem advance_trace (s : State) : (advance s).trace = s.trace := rfl
@[simp] theorem advance_pollLimit (s : State) : (advance s).pollLimit = s.pollLimit := rfl
@[simp] theorem advance_chip (s : State) : (advance s).chip = s.chip := rfl
@[simp] theorem advance_transport (s : State) : (advance s).transport = s.transport := rfl
@[simp] theorem advance_agenda (s : State) : (advance s).agenda = s.agenda := rfl

/-! ### transmit -/

@[simp] theorem transmit_csN (b : Byte) (s : State) : (transmit b s).csN = s.csN := rfl
@[simp] theorem transmit_mode (b : Byte) (s : State) : (transmit b s).mode = s.mode := rfl
@[simp] theorem transmit_req (b : Byte) (s : State) : (transmit b s).req = s.req := rfl
@[simp] theorem transmit_n (b : Byte) (s : State) : (transmit b s).n = s.n := rfl
@[simp] theorem transmit_script (b : Byte) (s : State) : (transmit b s).script = s.script := rfl
@[simp] theorem transmit_ip (b : Byte) (s : State) : (transmit b s).ip = s.ip := rfl
@[simp] theorem transmit_idBuf (b : Byte) (s : State) : (transmit b s).idBuf = s.idBuf := rfl
@[simp] theorem transmit_st (b : Byte) (s : State) : (transmit b s).st = s.st := rfl
@[simp] theorem transmit_pollPhase (b : Byte) (s : State) : (transmit b s).pollPhase = s.pollPhase := rfl
@[simp] theorem transmit_pollCount (b : Byte) (s : State) : (transmit b s).pollCount = s.pollCount := rfl
@[simp] theorem transmit_fault (b : Byte) (s : State) : (transmit b s).fault = s.fault := rfl
@[simp] theorem transmit_faultReq (b : Byte) (s : State) : (transmit b s).faultReq = s.faultReq := rfl
@[simp] theorem transmit_faultIp (b : Byte) (s : State) : (transmit b s).faultIp = s.faultIp := rfl
@[simp] theorem transmit_dst (b : Byte) (s : State) : (transmit b s).dst = s.dst := rfl
@[simp] theorem transmit_trace (b : Byte) (s : State) : (transmit b s).trace = s.trace ++ [.tx b] := rfl
@[simp] theorem transmit_pollLimit (b : Byte) (s : State) : (transmit b s).pollLimit = s.pollLimit := rfl
@[simp] theorem transmit_chip (b : Byte) (s : State) : (transmit b s).chip = s.chip := rfl
@[simp] theorem transmit_transport (b : Byte) (s : State) : (transmit b s).transport = s.transport := rfl
@[simp] theorem transmit_agenda (b : Byte) (s : State) : (transmit b s).agenda = s.agenda := rfl

/-! ### receive -/

@[simp] theorem receive_csN (s : State) : (receive s).csN = s.csN := rfl
@[simp] theorem receive_mode (s : State) : (receive s).mode = s.mode := rfl
@[simp] theorem receive_req (s : State) : (receive s).req = s.req := rfl
@[simp] theorem receive_n (s : State) : (receive s).n = s.n := rfl
@[simp] theorem receive_script (s : State) : (receive s).script = s.script := rfl
@[simp] theorem receive_ip (s : State) : (receive s).ip = s.ip := rfl
@[simp] theorem receive_idBuf (s : State) : (receive s).idBuf = s.idBuf := rfl
@[simp] theorem receive_st (s : State) : (receive s).st = s.st := rfl
@[simp] theorem receive_pollPhase (s : State) : (receive s).pollPhase = s.pollPhase := rfl
@[simp] theorem receive_pollCount (s : State) : (receive s).pollCount = s.pollCount := rfl
@[simp] theorem receive_fault (s : State) : (receive s).fault = s.fault := rfl
@[simp] theorem receive_faultReq (s : State) : (receive s).faultReq = s.faultReq := rfl
@[simp] theorem receive_faultIp (s : State) : (receive s).faultIp = s.faultIp := rfl
@[simp] theorem receive_dst (s : State) : (receive s).dst = s.dst := rfl
@[simp] theorem receive_trace (s : State) : (receive s).trace = s.trace ++ [.rx (chipByte s)] := rfl
@[simp] theorem receive_pollLimit (s : State) : (receive s).pollLimit = s.pollLimit := rfl
@[simp] theorem receive_chip (s : State) : (receive s).chip = s.chip.tail := rfl
@[simp] theorem receive_transport (s : State) : (receive s).transport = s.transport := rfl
@[simp] theorem receive_agenda (s : State) : (receive s).agenda = s.agenda := rfl

/-! ### writeDst -/

@[simp] theorem writeDst_csN (i : Nat) (v : Byte) (s : State) : (writeDst i v s).csN = s.csN := rfl
@[simp] theorem writeDst_mode (i : Nat) (v : Byte) (s : State) : (writeDst i v s).mode = s.mode := rfl
@[simp] theorem writeDst_req (i : Nat) (v : Byte) (s : State) : (writeDst i v s).req = s.req := rfl
@[simp] theorem writeDst_n (i : Nat) (v : Byte) (s : State) : (writeDst i v s).n = s.n := rfl
@[simp] theorem writeDst_script (i : Nat) (v : Byte) (s : State) : (writeDst i v s).script = s.script := rfl
@[simp] theorem writeDst_ip (i : Nat) (v : Byte) (s : State) : (writeDst i v s).ip = s.ip := rfl
@[simp] theorem writeDst_idBuf (i : Nat) (v : Byte) (s : State) : (writeDst i v s).idBuf = s.idBuf := rfl
@[simp] theorem writeDst_st (i : Nat) (v : Byte) (s : State) : (writeDst i v s).st = s.st := rfl
@[simp] theorem writeDst_pollPhase (i : Nat) (v : Byte) (s : State) : (writeDst i v s).pollPhase = s.pollPhase := rfl
@[simp] theorem writeDst_pollCount (i : Nat) (v : Byte) (s : State) : (writeDst i v s).pollCount = s.pollCount := rfl
@[simp] theorem writeDst_fault (i : Nat) (v : Byte) (s : State) : (writeDst i v s).fault = s.fault := rfl
@[simp] theorem writeDst_faultReq (i : Nat) (v : Byte) (s : State) : (writeDst i v s).faultReq = s.faultReq := rfl
@[simp] theorem writeDst_faultIp (i : Nat) (v : Byte) (s : State) : (writeDst i v s).faultIp = s.faultIp := rfl
@[simp] theorem writeDst_dst (i : Nat) (v : Byte) (s : State) : (writeDst i v s).dst = memWrite s.dst (dstAddr s i) v := rfl
@[simp] theorem dstAddr_receive (s : State) (i : Nat) : dstAddr (receive s) i = dstAddr s i := rfl
@[simp] theorem writeDst_trace (i : Nat) (v : Byte) (s : State) : (writeDst i v s).trace = s.trace ++ [.dw i v] := rfl
@[simp] theorem writeDst_pollLimit (i : Nat) (v : Byte) (s : State) : (writeDst i v s).pollLimit = s.pollLimit := rfl
@[simp] theorem writeDst_chip (i : Nat) (v : Byte) (s : State) : (writeDst i v s).chip = s.chip := rfl
@[simp] theorem writeDst_transport (i : Nat) (v : Byte) (s : State) : (writeDst i v s).transport = s.transport := rfl
@[simp] theorem writeDst_agenda (i : Nat) (v : Byte) (s : State) : (writeDst i v s).agenda = s.agenda := rfl

/-! ### clearRequest -/

@[simp] theorem clearRequest_csN (s : State) : (clearRequest s).csN = s.csN := rfl
@[simp] theorem clearRequest_mode (s : State) : (clearRequest s).mode = .idle := rfl
@[simp] theorem clearRequest_req (s : State) : (clearRequest s).req = none := rfl
@[simp] theorem clearRequest_n (s : State) : (clearRequest s).n = 0 := rfl
@[simp] theorem clearRequest_script (s : State) : (clearRequest s).script = [] := rfl
@[simp] theorem clearRequest_ip (s : State) : (clearRequest s).ip = 0 := rfl
@[simp] theorem clearRequest_idBuf (s : State) : (clearRequest s).idBuf = ⟨0, 0, 0⟩ := rfl
@[simp] theorem clearRequest_st (s : State) : (clearRequest s).st = 0 := rfl
@[simp] theorem clearRequest_pollPhase (s : State) : (clearRequest s).pollPhase = .pCsa := rfl
@[simp] theorem clearRequest_pollCount (s : State) : (clearRequest s).pollCount = 0 := rfl
@[simp] theorem clearRequest_fault (s : State) : (clearRequest s).fault = s.fault := rfl
@[simp] theorem clearRequest_faultReq (s : State) : (clearRequest s).faultReq = s.faultReq := rfl
@[simp] theorem clearRequest_faultIp (s : State) : (clearRequest s).faultIp = s.faultIp := rfl
@[simp] theorem clearRequest_dst (s : State) : (clearRequest s).dst = s.dst := rfl
@[simp] theorem clearRequest_trace (s : State) : (clearRequest s).trace = s.trace := rfl
@[simp] theorem clearRequest_pollLimit (s : State) : (clearRequest s).pollLimit = s.pollLimit := rfl
@[simp] theorem clearRequest_chip (s : State) : (clearRequest s).chip = s.chip := rfl
@[simp] theorem clearRequest_transport (s : State) : (clearRequest s).transport = s.transport := rfl
@[simp] theorem clearRequest_agenda (s : State) : (clearRequest s).agenda = s.agenda := rfl

/-! ### latch -/

@[simp] theorem latch_csN (r : Request) (k : Nat) (us : List MicroOp) (s : State) : (latch r k us s).csN = s.csN := rfl
@[simp] theorem latch_mode (r : Request) (k : Nat) (us : List MicroOp) (s : State) : (latch r k us s).mode = .run := rfl
@[simp] theorem latch_req (r : Request) (k : Nat) (us : List MicroOp) (s : State) : (latch r k us s).req = some r := rfl
@[simp] theorem latch_n (r : Request) (k : Nat) (us : List MicroOp) (s : State) : (latch r k us s).n = k := rfl
@[simp] theorem latch_script (r : Request) (k : Nat) (us : List MicroOp) (s : State) : (latch r k us s).script = us := rfl
@[simp] theorem latch_ip (r : Request) (k : Nat) (us : List MicroOp) (s : State) : (latch r k us s).ip = 0 := rfl
@[simp] theorem latch_idBuf (r : Request) (k : Nat) (us : List MicroOp) (s : State) : (latch r k us s).idBuf = s.idBuf := rfl
@[simp] theorem latch_st (r : Request) (k : Nat) (us : List MicroOp) (s : State) : (latch r k us s).st = s.st := rfl
@[simp] theorem latch_pollPhase (r : Request) (k : Nat) (us : List MicroOp) (s : State) : (latch r k us s).pollPhase = s.pollPhase := rfl
@[simp] theorem latch_pollCount (r : Request) (k : Nat) (us : List MicroOp) (s : State) : (latch r k us s).pollCount = s.pollCount := rfl
@[simp] theorem latch_fault (r : Request) (k : Nat) (us : List MicroOp) (s : State) : (latch r k us s).fault = s.fault := rfl
@[simp] theorem latch_faultReq (r : Request) (k : Nat) (us : List MicroOp) (s : State) : (latch r k us s).faultReq = s.faultReq := rfl
@[simp] theorem latch_faultIp (r : Request) (k : Nat) (us : List MicroOp) (s : State) : (latch r k us s).faultIp = s.faultIp := rfl
@[simp] theorem latch_dst (r : Request) (k : Nat) (us : List MicroOp) (s : State) : (latch r k us s).dst = s.dst := rfl
@[simp] theorem latch_trace (r : Request) (k : Nat) (us : List MicroOp) (s : State) : (latch r k us s).trace = s.trace := rfl
@[simp] theorem latch_pollLimit (r : Request) (k : Nat) (us : List MicroOp) (s : State) : (latch r k us s).pollLimit = s.pollLimit := rfl
@[simp] theorem latch_chip (r : Request) (k : Nat) (us : List MicroOp) (s : State) : (latch r k us s).chip = s.chip := rfl
@[simp] theorem latch_transport (r : Request) (k : Nat) (us : List MicroOp) (s : State) : (latch r k us s).transport = s.transport := rfl
@[simp] theorem latch_agenda (r : Request) (k : Nat) (us : List MicroOp) (s : State) : (latch r k us s).agenda = s.agenda := rfl

/-! ### driveCs -/

@[simp] theorem driveCs_mode (l : Bool) (s : State) : (driveCs l s).mode = s.mode := by
  unfold driveCs; split <;> rfl
@[simp] theorem driveCs_req (l : Bool) (s : State) : (driveCs l s).req = s.req := by
  unfold driveCs; split <;> rfl
@[simp] theorem driveCs_n (l : Bool) (s : State) : (driveCs l s).n = s.n := by
  unfold driveCs; split <;> rfl
@[simp] theorem driveCs_script (l : Bool) (s : State) : (driveCs l s).script = s.script := by
  unfold driveCs; split <;> rfl
@[simp] theorem driveCs_ip (l : Bool) (s : State) : (driveCs l s).ip = s.ip := by
  unfold driveCs; split <;> rfl
@[simp] theorem driveCs_idBuf (l : Bool) (s : State) : (driveCs l s).idBuf = s.idBuf := by
  unfold driveCs; split <;> rfl
@[simp] theorem driveCs_st (l : Bool) (s : State) : (driveCs l s).st = s.st := by
  unfold driveCs; split <;> rfl
@[simp] theorem driveCs_pollPhase (l : Bool) (s : State) : (driveCs l s).pollPhase = s.pollPhase := by
  unfold driveCs; split <;> rfl
@[simp] theorem driveCs_pollCount (l : Bool) (s : State) : (driveCs l s).pollCount = s.pollCount := by
  unfold driveCs; split <;> rfl
@[simp] theorem driveCs_fault (l : Bool) (s : State) : (driveCs l s).fault = s.fault := by
  unfold driveCs; split <;> rfl
@[simp] theorem driveCs_faultReq (l : Bool) (s : State) : (driveCs l s).faultReq = s.faultReq := by
  unfold driveCs; split <;> rfl
@[simp] theorem driveCs_faultIp (l : Bool) (s : State) : (driveCs l s).faultIp = s.faultIp := by
  unfold driveCs; split <;> rfl
@[simp] theorem driveCs_dst (l : Bool) (s : State) : (driveCs l s).dst = s.dst := by
  unfold driveCs; split <;> rfl
@[simp] theorem driveCs_pollLimit (l : Bool) (s : State) : (driveCs l s).pollLimit = s.pollLimit := by
  unfold driveCs; split <;> rfl
@[simp] theorem driveCs_chip (l : Bool) (s : State) : (driveCs l s).chip = s.chip := by
  unfold driveCs; split <;> rfl
@[simp] theorem driveCs_transport (l : Bool) (s : State) : (driveCs l s).transport = s.transport := by
  unfold driveCs; split <;> rfl
@[simp] theorem driveCs_agenda (l : Bool) (s : State) : (driveCs l s).agenda = s.agenda := by
  unfold driveCs; split <;> rfl

@[simp] theorem driveCs_csN (l : Bool) (s : State) : (driveCs l s).csN = l := by
  unfold driveCs; split
  · assumption
  · rfl

/-- The event of a write of the select line (R15): none when the level stays. -/
theorem driveCs_trace (l : Bool) (s : State) :
    (driveCs l s).trace = s.trace ++ (if s.csN = l then [] else [if l then .desel else .sel]) := by
  unfold driveCs; split <;> simp

/-- A write of the select line as one record update. -/
theorem driveCs_eq (l : Bool) (s : State) :
    driveCs l s = { s with
      csN := l, trace := s.trace ++ (if s.csN = l then [] else [if l then .desel else .sel]) } := by
  unfold driveCs; split
  · rename_i h; cases s; simp_all
  · rfl

end Sys2Proof.Machine
end

