-- ==== Sys2Proof/Laws/MicroOps.lean ====
section
/-! SUPPORT. What one micro-op can do (40_bus_and_select.md R75-R79, 41_helpers.md R86, R89), said once. -/

namespace Sys2Proof.Machine
open Sys2Proof

/-- Every way a micro-op goes on: its effect, or no change while the transport does not complete the exchange (R82). -/
theorem microStep_cases {s t : State} (h : microStep s = .next t) :
    (s.script[s.ip]? = some .csa ∧ t = advance (driveCs false s)) ∨
    (s.script[s.ip]? = some .csd ∧ t = advance (driveCs true s)) ∨
    (∃ b, s.script[s.ip]? = some (.tx b) ∧ t = advance (transmit b s)) ∨
    (∃ k, s.script[s.ip]? = some (.rxi k) ∧ t = advance { receive s with idBuf := s.idBuf.put k (chipByte s) }) ∨
    (∃ i, s.script[s.ip]? = some (.rxd i) ∧ i < dstCap s ∧ t = advance (writeDst i (chipByte s) (receive s))) ∨
    (s.script[s.ip]? = some .poll ∧ s.pollPhase = .pCsa ∧ t = { driveCs false s with pollPhase := .pTx }) ∨
    (s.script[s.ip]? = some .poll ∧ s.pollPhase = .pTx ∧ t = { transmit opReadStatus1 s with pollPhase := .pRx }) ∨
    (s.script[s.ip]? = some .poll ∧ s.pollPhase = .pRx ∧ t = { receive s with st := chipByte s, pollPhase := .pCsd }) ∨
    (s.script[s.ip]? = some .poll ∧ s.pollPhase = .pCsd ∧ t = pollDecide s) ∨
    (s.script[s.ip]? = some .ret ∧ t = complete .ok (responseId s) s) ∨
    (t = s ∧ s.transport = .stalled) := by
  unfold microStep at h
  split at h
  · cases h
  · cases h; tauto
  · cases h; tauto
  · unfold microTx exchange at h; split at h <;> cases h <;> simp_all
  · unfold microRxi exchange at h; split at h <;> cases h <;> simp_all
  · unfold microRxd exchange at h; split at h
    · split at h <;> cases h <;> simp_all
    · cases h
  · unfold microPoll exchange at h
    split at h
    · cases h; tauto
    · split at h <;> cases h <;> simp_all
    · split at h <;> cases h <;> simp_all
    · cases h; tauto
  · cases h; simp_all

/-- The three ends of a poll iteration. -/
theorem pollDecide_cases (s : State) :
    (busy s.st = false ∧ pollDecide s = { driveCs true s with pollCount := 0, pollPhase := .pCsa, ip := s.ip + 1 }) ∨
    (s.pollLimit = some (s.pollCount + 1) ∧ pollDecide s = complete .notResponding none (driveCs true s)) ∨
    (pollDecide s = { driveCs true s with pollCount := s.pollCount + 1, pollPhase := .pCsa }) := by
  unfold pollDecide
  simp only
  split_ifs with h1 h2
  · exact .inl ⟨h1, by simp⟩
  · refine .inr (.inl ⟨?_, by simp [complete, clearRequest, emit]⟩)
    cases h : s.pollLimit <;> simp_all [limitReached]
  · exact .inr (.inr rfl)

/-- The bound, as the spec says it: finite and equal to the count (R86). -/
theorem limitReached_iff (limit : Option Nat) (count : Nat) : limitReached limit count = true ↔ limit = some count := by
  cases limit <;> simp [limitReached]
  exact eq_comm

/-- The next lined-up answer is the one received (R34). -/
theorem chipByte_of_chip {s : State} {v : Byte} {more : List Byte} (h : s.chip = v :: more) : chipByte s = v := by
  simp [chipByte, h]

/-! ### A run of micro-ops inside a bracket -/

/-- The effect of a micro-op of a bracket while the transport is live. -/
def play1 (u : MicroOp) (s : State) : State :=
  match u with
  | .csa => advance (driveCs false s)
  | .csd => advance (driveCs true s)
  | .tx b => advance (transmit b s)
  | .rxi k => advance { receive s with idBuf := s.idBuf.put k (chipByte s) }
  | .rxd i => advance (writeDst i (chipByte s) (receive s))
  | .poll | .ret => s

/-- The effects one after the other. -/
def play : List MicroOp → State → State
  | [], s => s
  | u :: us, s => play us (play1 u s)

/-- A micro-op of a bracket that stays inside a buffer of `d` bytes. -/
def plain (d : Nat) : MicroOp → Bool
  | .rxd i => decide (i < d)
  | .poll | .ret => false
  | .csa | .csd | .tx _ | .rxi _ => true

theorem micro_play {s : State} {u : MicroOp} (hu : s.script[s.ip]? = some u) (hl : s.transport = .live) (hp : plain (dstCap s) u = true) :
    microStep s = .next (play1 u s) := by
  cases u <;> simp [plain] at hp <;> simp [microStep, hu, microCsa, microCsd, microTx, microRxi, microRxd, exchange, hl, play1]
  exact hp

theorem play1_keeps {u : MicroOp} {d : Nat} (hp : plain d u = true) (s : State) : (play1 u s).mode = s.mode ∧ (play1 u s).script = s.script ∧ (play1 u s).req = s.req ∧
    (play1 u s).n = s.n ∧ (play1 u s).transport = s.transport ∧ (play1 u s).agenda = s.agenda ∧ (play1 u s).ip = s.ip + 1 := by
  cases u <;> simp [play1, plain] at *

theorem play_append (us vs : List MicroOp) (s : State) : play (us ++ vs) s = play vs (play us s) := by
  induction us generalizing s with
  | nil => rfl
  | cons u us ih => simp [play, ih]

theorem play_tx (bs : List Byte) (s : State) : play (bs.map .tx) s = { s with trace := s.trace ++ bs.map .tx, ip := s.ip + bs.length } := by
  induction bs generalizing s with
  | nil => simp [play]
  | cons b bs ih => rw [List.map_cons, play, ih]; simp [play1, transmit, advance, emit]; omega

end Sys2Proof.Machine
end

