-- ==== Sys2Proof/Laws/Requests.lean ====
section
/-! SUPPORT. Acceptance (60_exceptions.md R105), mode by mode, and what acceptance takes: the five operations with their scripts
and lengths. -/

namespace Sys2Proof.Machine
open Sys2Proof

/-- In IDLE, an operation with a check. -/
theorem present_idle_checked {r : Request} {c : Prop} [Decidable c] {e : FaultCode} {k : Nat} {us : List MicroOp} {s : State}
    (h : s.mode = .idle) : present r (if c then some e else none) k us s =
      .next (if c then raiseFault e r s else latch r k us s) := by
  unfold present; rw [h]; split_ifs <;> rfl

/-- In IDLE, an operation without one. -/
theorem present_idle_unchecked {r : Request} {k : Nat} {us : List MicroOp} {s : State}
    (h : s.mode = .idle) : present r none k us s = .next (latch r k us s) := by
  unfold present; rw [h]

/-- In IDLE, a code that is refused. -/
theorem present_idle_illegal {r : Request} {e : FaultCode} {k : Nat} {us : List MicroOp} {s : State}
    (h : s.mode = .idle) : present r (some e) k us s = .next (raiseFault e r s) := by
  unfold present; rw [h]

/-- In RUN, every request is BUSY_REQUEST. -/
theorem present_run {r : Request} {c : Option FaultCode} {k : Nat} {us : List MicroOp} {s : State}
    (h : s.mode = .run) : present r c k us s = .next (raiseFault .busyRequest r s) := by
  unfold present; rw [h]

/-- In FAULTED, no request is taken. -/
theorem present_faulted {r : Request} {c : Option FaultCode} {k : Nat} {us : List MicroOp} {s : State}
    (h : s.mode = .faulted) : present r c k us s = .next s := by
  unfold present; rw [h]

/-- Fault entry (R107) as one record update. -/
theorem raiseFault_fields (c : FaultCode) (r : Request) (s : State) : raiseFault c r s = { s with
    csN := true, trace := s.trace ++ (if s.csN = true then [.fault c] else [.desel, .fault c])
    fault := some c, mode := .faulted, faultReq := some r
    faultIp := if s.mode = .run then some s.ip else none } := by
  simp only [raiseFault, driveCs_eq, emit]
  by_cases h : s.csN = true <;> simp [h]

/-- The operations acceptance takes, with the script and the length each has. -/
theorem accepted_cases {r : Request} (h : accepted r = true) :
    (r.op = 0 ∧ scriptOf r = identifyScript ∧ lengthOf r = 0) ∨
    (r.op = 1 ∧ scriptOf r = readScript r.toFields ∧ lengthOf r = r.len.toNat ∧ r.len.toNat ≤ r.dstCap) ∨
    (r.op = 2 ∧ scriptOf r = pageProgramScript r.toFields ∧ lengthOf r = programLength r.toFields ∧ programLength r.toFields ≤ r.src.length) ∨
    (r.op = 3 ∧ scriptOf r = sectorEraseScript r.toFields ∧ lengthOf r = 0) ∨
    (r.op = 4 ∧ scriptOf r = chipEraseScript ∧ lengthOf r = 0) := by
  obtain ⟨f, op⟩ := r
  rcases op_cases op with h' | h' | h' | h' | h' | h' | h' | h' <;> subst h' <;>
    simp [accepted, decodeRequest, Instr.wellFormed, Instr.opLegal, Instr.dstSized, Instr.srcLongEnough, scriptOf, lengthOf,
      readLength, programLength] at h ⊢ <;> omega

end Sys2Proof.Machine
end

