-- ==== Sys2Proof/Laws/Scripts.lean ====
section
/-! SUPPORT. The scripts (10_state.md R20) written out, the order of the micro-ops in them, and the bracket around an index
(40_bus_and_select.md R69). -/

namespace Sys2Proof.Machine
open Sys2Proof

theorem readScript_eq (f : Fields) : readScript f = .csa :: .tx opReadData :: .tx (f.addr.extractLsb' 16 8) ::
    .tx (f.addr.extractLsb' 8 8) :: .tx (f.addr.extractLsb' 0 8) :: ((List.range f.len.toNat).map .rxd ++ [.csd, .ret]) := by
  simp [readScript, readDataFrame, bracket, commandBytes, encode, addrBytes, readLength]

theorem pageProgramScript_eq (f : Fields) : pageProgramScript f = .csa :: .tx opWriteEnable :: .csd :: .csa :: .tx opPageProgram ::
    .tx (f.addr.extractLsb' 16 8) :: .tx (f.addr.extractLsb' 8 8) :: .tx (f.addr.extractLsb' 0 8) ::
    ((payload f.src (programLength f)).map .tx ++ [.csd, .poll, .ret]) := by
  simp [pageProgramScript, writeEnableFrame, pageProgramFrame, readStatusFrame, bracket, commandBytes, encode, addrBytes]

theorem sectorEraseScript_eq (f : Fields) : sectorEraseScript f = [.csa, .tx opWriteEnable, .csd, .csa, .tx opSectorErase,
    .tx (f.addr.extractLsb' 16 8), .tx (f.addr.extractLsb' 8 8), .tx (f.addr.extractLsb' 0 8), .csd, .poll, .ret] := by
  simp [sectorEraseScript, sectorEraseFrame, writeEnableFrame, readStatusFrame, bracket, commandBytes, encode, addrBytes]

/-! ### The order of micro-ops -/

/-- Which micro-op may come right after which. -/
def follows : MicroOp → MicroOp → Bool
  | .csa, .tx _ => true
  | .tx _, .tx _ | .tx _, .rxi _ | .tx _, .rxd _ | .tx _, .csd => true
  | .rxi _, .rxi _ | .rxi _, .csd => true
  | .rxd _, .rxd _ | .rxd _, .csd => true
  | .csd, .csa | .csd, .poll | .csd, .ret => true
  | .poll, .ret => true
  | .csa, _ | .tx _, _ | .rxi _, _ | .rxd _, _ | .csd, _ | .poll, _ | .ret, _ => false

/-- Every micro-op of the list may come after the one before it. -/
abbrev Ordered (us : List MicroOp) : Prop := us.IsChain (fun u v => follows u v = true)

theorem ordered_rxd (is : List Nat) (b : Byte) : Ordered (.tx b :: (is.map .rxd ++ [.csd, .ret])) := by
  have h : ∀ is : List Nat, ∀ i, Ordered (.rxd i :: (is.map .rxd ++ [.csd, .ret])) := by
    intro is
    induction is with
    | nil => intro i; exact List.isChain_cons_cons.2 ⟨rfl, List.isChain_cons_cons.2 ⟨rfl, List.isChain_singleton _⟩⟩
    | cons j is ih => intro i; exact List.isChain_cons_cons.2 ⟨rfl, ih j⟩
  cases is with
  | nil => exact List.isChain_cons_cons.2 ⟨rfl, List.isChain_cons_cons.2 ⟨rfl, List.isChain_singleton _⟩⟩
  | cons j is => exact List.isChain_cons_cons.2 ⟨rfl, h is j⟩

theorem ordered_tx (bs : List Byte) (b : Byte) : Ordered (.tx b :: (bs.map .tx ++ [.csd, .poll, .ret])) := by
  induction bs generalizing b with
  | nil => exact List.isChain_cons_cons.2 ⟨rfl, List.isChain_cons_cons.2 ⟨rfl, List.isChain_cons_cons.2 ⟨rfl, List.isChain_singleton _⟩⟩⟩
  | cons c bs ih => exact List.isChain_cons_cons.2 ⟨rfl, ih c⟩

/-- The script of an accepted request is in order. -/
theorem scriptOf_ordered {r : Request} (h : accepted r = true) : Ordered (scriptOf r) := by
  rcases accepted_cases h with ⟨-, h, -⟩ | ⟨-, h, -⟩ | ⟨-, h, -⟩ | ⟨-, h, -⟩ | ⟨-, h, -⟩ <;> rw [h]
  · unfold Ordered; decide
  · rw [readScript_eq]
    have := ordered_rxd (List.range r.len.toNat) (r.addr.extractLsb' 0 8)
    simp only [Ordered, List.isChain_cons_cons] at this ⊢
    exact ⟨rfl, rfl, rfl, rfl, this⟩
  · rw [pageProgramScript_eq]
    have := ordered_tx (payload r.src (programLength r.toFields)) (r.addr.extractLsb' 0 8)
    simp only [Ordered, List.isChain_cons_cons] at this ⊢
    exact ⟨rfl, rfl, rfl, rfl, rfl, rfl, rfl, this⟩
  · rw [sectorEraseScript_eq]
    simp only [Ordered, List.isChain_cons_cons]
    exact ⟨rfl, rfl, rfl, rfl, rfl, rfl, rfl, rfl, rfl, rfl, List.isChain_singleton _⟩
  · unfold Ordered; decide

/-- It starts with a CSA. -/
theorem scriptOf_head {r : Request} (h : accepted r = true) : (scriptOf r)[0]? = some .csa := by
  rcases accepted_cases h with ⟨-, h, -⟩ | ⟨-, h, -⟩ | ⟨-, h, -⟩ | ⟨-, h, -⟩ | ⟨-, h, -⟩ <;> rw [h] <;> rfl

/-- It ends with RET. -/
theorem scriptOf_last {r : Request} (h : accepted r = true) : ∃ us, scriptOf r = us ++ [.ret] := by
  rcases accepted_cases h with ⟨-, h, -⟩ | ⟨-, h, -⟩ | ⟨-, h, -⟩ | ⟨-, h, -⟩ | ⟨-, h, -⟩ <;> rw [h] <;> exact ⟨_, rfl⟩

/-- Its RXD micro-ops stay inside the destination buffer (R37). -/
theorem scriptOf_rxd {r : Request} (h : accepted r = true) {k i : Nat} (hk : (scriptOf r)[k]? = some (.rxd i)) : i < r.dstCap := by
  have hm := List.mem_of_getElem? hk
  rcases accepted_cases h with ⟨-, h, -⟩ | ⟨-, h, -, hl⟩ | ⟨-, h, -⟩ | ⟨-, h, -⟩ | ⟨-, h, -⟩ <;> rw [h] at hm
  · revert hm; simp [identifyScript, readIdFrame, bracket]
  · rw [readScript_eq] at hm
    simp at hm; omega
  · rw [pageProgramScript_eq] at hm; simp at hm
  · rw [sectorEraseScript_eq] at hm; simp at hm
  · revert hm; simp [chipEraseScript, chipEraseFrame, writeEnableFrame, readStatusFrame, bracket]

/-- After every micro-op but RET there is a next one, in order. -/
theorem scriptOf_next {r : Request} (ha : accepted r = true) {k : Nat} {u : MicroOp} (hu : (scriptOf r)[k]? = some u) (hne : u ≠ .ret) :
    ∃ v, (scriptOf r)[k + 1]? = some v ∧ follows u v = true := by
  obtain ⟨us, hs⟩ := scriptOf_last ha
  have hlt := (List.getElem?_eq_some_iff.1 hu).1
  have hk : k < us.length := by
    by_contra hge
    have : (scriptOf r).length = us.length + 1 := by rw [hs]; simp
    have hk : k = us.length := by omega
    rw [hs, hk] at hu
    simp at hu; exact hne hu.symm
  have hlt' : k + 1 < (scriptOf r).length := by rw [hs]; simp; omega
  refine ⟨(scriptOf r)[k + 1], List.getElem?_eq_getElem hlt', ?_⟩
  have := (List.isChain_iff_getElem.1 (scriptOf_ordered ha)) k (by omega)
  rw [List.getElem?_eq_getElem hlt] at hu
  cases hu
  exact this

/-- The micro-op before one, in order. -/
theorem scriptOf_prev {r : Request} (ha : accepted r = true) {k : Nat} {u v : MicroOp} (hk : 0 < k) (hu : (scriptOf r)[k]? = some u)
    (hv : (scriptOf r)[k - 1]? = some v) (hne : v ≠ .ret) : follows v u = true := by
  obtain ⟨w, hw, hf⟩ := scriptOf_next ha hv hne
  rw [Nat.sub_add_cancel hk, hu] at hw
  cases hw; exact hf

/-! ### The bracket around an index -/

theorem uptoCsd_body (body post : List MicroOp) (h : .csd ∉ body) : uptoCsd (body ++ .csd :: post) = body ++ [.csd] := by
  induction body with
  | nil => simp [uptoCsd]
  | cons u us ih =>
    simp only [List.mem_cons, not_or] at h
    simp [uptoCsd, Ne.symm h.1, ih h.2]

theorem uptoCsd_prefix (us : List MicroOp) : uptoCsd us <+: us := by
  induction us with
  | nil => exact List.prefix_rfl
  | cons u us ih =>
    unfold uptoCsd
    split
    · rename_i h; subst h; exact (List.prefix_append [.csd] us)
    · exact (List.prefix_cons_inj _).2 ih

/-- The bracket starts at the last CSA. -/
theorem bracketStart_eq {us : List MicroOp} {j k : Nat} (hjk : j ≤ k) (hj : us[j]? = some .csa)
    (hn : ∀ m, j < m → m ≤ k → us[m]? ≠ some .csa) : bracketStart us k = j := by
  induction k with
  | zero => simp [bracketStart]; omega
  | succ k ih =>
    unfold bracketStart
    by_cases h : j = k + 1
    · subst h; simp [hj]
    · rw [if_neg (hn _ (by omega) (by omega))]
      exact ih (by omega) (fun m h1 h2 => hn m h1 (by omega))

/-- Around every index of a bracket stands that bracket. -/
theorem bracketAt_bracket (pre body post : List MicroOp) (ip : Nat)
    (hb : ∀ u ∈ body, u ≠ .csa ∧ u ≠ .csd ∧ u ≠ .poll ∧ u ≠ .ret)
    (h1 : pre.length ≤ ip) (h2 : ip < pre.length + body.length + 2) :
    bracketAt (pre ++ (.csa :: body ++ [.csd]) ++ post) ip = .csa :: body ++ [.csd] := by
  generalize hus : pre ++ (.csa :: body ++ [.csd]) ++ post = us
  have hget : ∀ m, us[pre.length + m]? = (.csa :: (body ++ .csd :: post) : List MicroOp)[m]? := by
    intro m
    rw [← hus, List.append_assoc, List.getElem?_append_right (by omega)]
    simp
  have hdrop : us.drop pre.length = .csa :: (body ++ .csd :: post) := by
    rw [← hus, List.append_assoc, List.drop_left]; simp
  obtain ⟨k, rfl⟩ := Nat.exists_eq_add_of_le h1
  have hin : ∀ m, 0 < m → m ≤ body.length → ∃ u ∈ body, us[pre.length + m]? = some u := by
    intro m h0 hm
    refine ⟨body[m - 1], List.getElem_mem (by omega), ?_⟩
    rw [hget, List.getElem?_cons, if_neg (by omega), List.getElem?_append_left (by omega), List.getElem?_eq_getElem]
  have hend : us[pre.length + (body.length + 1)]? = some .csd := by
    rw [hget]; simp
  have hstart : bracketStart us (pre.length + k) = pre.length := by
    refine bracketStart_eq h1 (by simpa using hget 0) ?_
    intro m hm1 hm2
    obtain ⟨d, rfl⟩ := Nat.exists_eq_add_of_lt hm1
    rcases Nat.lt_or_ge d body.length with hd | hd
    · obtain ⟨u, hu, e⟩ := hin (d + 1) (by omega) (by omega)
      rw [Nat.add_assoc, e]; simpa using (hb u hu).1
    · have : d = body.length := by omega
      subst this
      rw [Nat.add_assoc, hend]; simp
  have hval : (if pre.length + k < bracketStart us (pre.length + k) + (uptoCsd (us.drop (bracketStart us (pre.length + k)))).length
      then uptoCsd (us.drop (bracketStart us (pre.length + k))) else []) = .csa :: body ++ [.csd] := by
    rw [hstart, hdrop]
    have := uptoCsd_body (.csa :: body) post (by simp; intro h; exact (hb _ h).2.1 rfl)
    simp only [List.cons_append] at this
    rw [this, if_pos (by simp; omega)]
    simp
  rcases Nat.eq_zero_or_pos k with rfl | hk
  · have h0 : us[pre.length + 0]? = some .csa := by simpa using hget 0
    unfold bracketAt
    simp only [h0]
    exact hval
  · rcases Nat.lt_or_ge body.length k with hk' | hk'
    · have : k = body.length + 1 := by omega
      unfold bracketAt
      simp only [this, hend] at hval ⊢
      exact hval
    · obtain ⟨u, hu, e⟩ := hin k hk hk'
      obtain ⟨n1, n2, n3, n4⟩ := hb u hu
      unfold bracketAt
      simp only [e]
      cases u <;> simp_all

theorem bracketAt_poll {us : List MicroOp} {k : Nat} (h : us[k]? = some .poll) : bracketAt us k = readStatusFrame := by
  simp [bracketAt, h, readStatusFrame]

theorem bracketAt_ret {us : List MicroOp} {k : Nat} (h : us[k]? = some .ret) : bracketAt us k = [] := by
  simp [bracketAt, h]

theorem txOperands_map (bs : List Byte) (us : List MicroOp) : txOperands (bs.map .tx ++ us) = bs ++ txOperands us := by
  induction bs with
  | nil => rfl
  | cons b bs ih => simp [txOperands, ih]

/-- What a bracket transmits: its command part, then its data phase (R54). -/
theorem bracketBytes_bracket (i : Instr) (data : List MicroOp) :
    bracketBytes (bracket i data) = commandBytes i ++ txOperands (data ++ [.csd]) := by
  simp [bracketBytes, bracket, txOperands_map]

end Sys2Proof.Machine
end

