-- ==== Sys2Proof/Laws/Turn.lean ====
section
/-! SUPPORT. Whose step it is and which meaning it runs (40_bus_and_select.md R80, 60_exceptions.md R113): a frame in progress is
the micro-op at `ip`, and a step is a request, a reset, a move of the environment, or a micro-op. -/

namespace Sys2Proof.Machine
open Sys2Proof

theorem stepFrame_eq {ops : List MicroOp} {s : State} (hm : s.mode = .run) (hb : bracketAt s.script s.ip = ops) :
    stepFrame ops s = microStep s := if_pos ⟨hm, hb⟩

/-- The meaning of a frame in progress is the micro-op at `ip`. -/
theorem exec_frame {i : Instr} {s : State} (hm : s.mode = .run) (hb : bracketAt s.script s.ip = frameOf i s)
    (hne : frameOf i s ≠ []) : exec i s = microStep s := by
  cases i <;> first | exact absurd rfl hne | exact stepFrame_eq hm hb

theorem exec_poll {s : State} (hm : s.mode = .run) (hu : s.script[s.ip]? = some .poll) :
    exec .readStatus1 s = microPoll s := by
  rw [exec_frame (i := .readStatus1) hm (bracketAt_poll hu) (by simp [frameOf, readStatusFrame])]
  simp [microStep, hu]

/-- A fetched frame is the one in progress. -/
theorem fetchFrame_some {s : State} {i : Instr} (h : fetchFrame s = some i) :
    s.mode = .run ∧ bracketAt s.script s.ip = frameOf i s ∧ frameOf i s ≠ [] := by
  unfold fetchFrame at h
  simp only at h
  split at h
  · rename_i j rest hd
    split at h
    · rename_i hc
      cases h
      refine ⟨hc.1, hc.2.symm, ?_⟩
      intro h0
      rw [h0] at hc
      rw [← hc.2] at hd
      simp [bracketBytes, decodeFrame] at hd
    · cases h
  · cases h

theorem fetchFrame_poll {s : State} (hm : s.mode = .run) (hu : s.script[s.ip]? = some .poll) : fetchFrame s = some .readStatus1 := by
  unfold fetchFrame
  simp only [bracketAt_poll hu, readStatusFrame, bracketBytes]
  simp [decodeFrame, opReadStatus1, opReadId, opReadData, opPageProgram, opSectorErase, opChipErase, opWriteEnable, hm, frameOf, readStatusFrame]

theorem fetchFrame_ret {s : State} (hu : s.script[s.ip]? = some .ret) : fetchFrame s = none := by
  unfold fetchFrame
  simp [bracketAt_ret hu, bracketBytes, decodeFrame]

theorem engineTurn_run {s : State} (hm : s.mode = .run) : engineTurn s = microStep s := by
  unfold engineTurn
  rw [hm]
  simp only
  split
  · rename_i i h
    obtain ⟨h1, h2, h3⟩ := fetchFrame_some h
    exact exec_frame h1 h2 h3
  · rfl

theorem engineTurn_not_run {s : State} (hm : s.mode ≠ .run) : engineTurn s = .next s := by
  unfold engineTurn
  cases h : s.mode <;> simp_all

/-- What a step can be. -/
theorem step_cases {s t : State} (h : step s = .next t) :
    (∃ r more, (s.agenda = .request r :: more ∨ (s.agenda = .await r :: more ∧ s.mode = .idle)) ∧
      exec (decodeRequest r) { s with agenda := more } = .next t) ∨
    (∃ more, s.agenda = .reset :: more ∧ t = resetInput { s with agenda := more }) ∨
    (∃ more tr, t = { s with agenda := more, transport := tr } ∧ ∀ m, s.agenda ≠ .reset :: m) ∨
    (∃ more, s.mode = .run ∧ microStep { s with agenda := more } = .next t ∧ ∀ m, s.agenda ≠ .reset :: m) := by
  have eng : ∀ more, engineTurn { s with agenda := more } = .next t → (∀ m, s.agenda ≠ .reset :: m) →
    (∃ more tr, t = { s with agenda := more, transport := tr } ∧ ∀ m, s.agenda ≠ .reset :: m) ∨
    (∃ more, s.mode = .run ∧ microStep { s with agenda := more } = .next t ∧ ∀ m, s.agenda ≠ .reset :: m) := by
    intro more h hn
    by_cases hm : s.mode = .run
    · exact .inr ⟨more, hm, (engineTurn_run (s := { s with agenda := more }) hm) ▸ h, hn⟩
    · rw [engineTurn_not_run (s := { s with agenda := more }) hm] at h
      cases h; exact .inl ⟨more, s.transport, rfl, hn⟩
  unfold step takeTurn at h
  split at h
  · rename_i ha
    have : s = { s with agenda := s.agenda } := rfl
    exact .inr (.inr (eng s.agenda h (by simp [ha])))
  · rename_i more ha; exact .inr (.inr (eng more h (by simp [ha])))
  · rename_i r more ha; exact .inl ⟨r, more, .inl ha, h⟩
  · rename_i r more ha
    split at h
    · exact .inl ⟨r, more, .inr ⟨ha, by simpa [ready] using ‹ready s = true›⟩, h⟩
    · exact .inr (.inr (eng s.agenda h (by simp [ha])))
  · rename_i more ha; cases h; exact .inr (.inl ⟨more, ha, rfl⟩)
  · rename_i more ha; cases h; exact .inr (.inr (.inl ⟨more, _, rfl, by simp [ha]⟩))
  · rename_i more ha; cases h; exact .inr (.inr (.inl ⟨more, _, rfl, by simp [ha]⟩))

end Sys2Proof.Machine
end

