-- ==== Sys2Proof/Laws/Liveness.lean ====
section
/-! SUPPORT. How a run goes on in RUN (70_reset_and_hazards.md R132, 40_bus_and_select.md R80, R82): whose step comes, where a
micro-op leaves the engine, what a step leaves of the outside world, and the two liveness premises along a run. -/

namespace Sys2Proof.Machine
open Sys2Proof

/-! ### Whose step comes -/

/-- A host that keeps HZ1 waits while the engine runs. -/
theorem step_await {s : State} {r : Request} {more : List Turn} (ha : s.agenda = .await r :: more) (hm : s.mode = .run) :
    step s = microStep s := by
  have hr : ready s = false := by simp [ready, hm]
  simp only [step, takeTurn, ha, hr, Bool.false_eq_true, if_false]
  exact engineTurn_run hm

/-- In RUN the coming step cuts the request, is the engine's, or is a move of the transport. -/
theorem run_moves {s : State} (hm : s.mode = .run) : CutComes s ∨
    (∃ more, EngineMoves s ∧ step s = microStep { s with agenda := more }) ∨
    ∃ more tr, step s = .next { s with agenda := more, transport := tr } ∧ more.length < s.agenda.length := by
  rcases ha : s.agenda with _ | ⟨m, more⟩
  · exact .inr (.inl ⟨s.agenda, ⟨hm, .inl ha⟩, by simp only [step, takeTurn, ha]; exact (engineTurn_run hm).trans (by rw [← ha])⟩)
  · cases m with
    | engine => exact .inr (.inl ⟨more, ⟨hm, .inr (.inl ⟨_, ha⟩)⟩, by simp only [step, takeTurn, ha]; exact engineTurn_run hm⟩)
    | request r => exact .inl ⟨hm, .inr ⟨_, _, ha⟩⟩
    | await r => exact .inr (.inl ⟨s.agenda, ⟨hm, .inr (.inr ⟨_, _, ha⟩)⟩, step_await ha hm⟩)
    | reset => exact .inl ⟨hm, .inl ⟨_, ha⟩⟩
    | stall => exact .inr (.inr ⟨more, .stalled, by simp only [step, takeTurn, ha], by simp⟩)
    | resume => exact .inr (.inr ⟨more, .live, by simp only [step, takeTurn, ha], by simp⟩)

/-! ### Where a micro-op leaves the engine -/

/-- The phases still to come in a poll iteration. -/
def rank : PollPhase → Nat
  | .pCsa => 3
  | .pTx => 2
  | .pRx => 1
  | .pCsd => 0

/-- A micro-op goes on to the next index, or to the next phase or iteration of POLL, or ends the request with a DONE, or waits at
an exchange that does not complete. -/
theorem micro_class {s t : State} (h : microStep s = .next t) : t.pollLimit = s.pollLimit ∧ (
    (t.mode = s.mode ∧ t.script = s.script ∧ t.ip = s.ip + 1) ∨
    (s.script[s.ip]? = some .poll ∧ t.mode = s.mode ∧ t.script = s.script ∧ t.ip = s.ip ∧
      ((t.pollCount = s.pollCount ∧ rank t.pollPhase < rank s.pollPhase) ∨
        (s.pollPhase = .pCsd ∧ t.pollCount = s.pollCount + 1 ∧ t.pollPhase = .pCsa ∧ busy s.st = true))) ∨
    (t.mode = .idle ∧ ∃ r id, t.trace.getLast? = some (.done r id) ∧ (r = .ok ∨ s.pollLimit ≠ none)) ∨
    (t = s ∧ s.transport = .stalled ∧ AtExchange s)) := by
  unfold microStep at h
  split at h
  · cases h
  · cases h; simp
  · cases h; simp
  · rename_i b hu
    unfold microTx exchange at h; split at h <;> cases h
    · simp
    · exact ⟨rfl, .inr (.inr (.inr ⟨rfl, ‹_›, .inl ⟨b, hu⟩⟩))⟩
  · rename_i k hu
    unfold microRxi exchange at h; split at h <;> cases h
    · simp
    · exact ⟨rfl, .inr (.inr (.inr ⟨rfl, ‹_›, .inr (.inl ⟨k, hu⟩)⟩))⟩
  · rename_i i hu
    unfold microRxd exchange at h; split at h
    · rename_i hi
      split at h <;> cases h
      · simp
      · exact ⟨rfl, .inr (.inr (.inr ⟨rfl, ‹_›, .inr (.inr (.inl ⟨i, hu, hi⟩))⟩))⟩
    · cases h
  · rename_i hu
    unfold microPoll exchange at h
    split at h
    · rename_i hp
      cases h; exact ⟨by simp, .inr (.inl ⟨hu, by simp, by simp, by simp, .inl ⟨by simp, by simp [rank, hp]⟩⟩)⟩
    · rename_i hp
      split at h <;> cases h
      · exact ⟨by simp, .inr (.inl ⟨hu, by simp, by simp, by simp, .inl ⟨by simp, by simp [rank, hp]⟩⟩)⟩
      · exact ⟨rfl, .inr (.inr (.inr ⟨rfl, ‹_›, .inr (.inr (.inr ⟨hu, .inl hp⟩))⟩))⟩
    · rename_i hp
      split at h <;> cases h
      · exact ⟨by simp, .inr (.inl ⟨hu, by simp, by simp, by simp, .inl ⟨by simp, by simp [rank, hp]⟩⟩)⟩
      · exact ⟨rfl, .inr (.inr (.inr ⟨rfl, ‹_›, .inr (.inr (.inr ⟨hu, .inr hp⟩))⟩))⟩
    · rename_i hp
      cases h
      unfold pollDecide
      simp only
      split_ifs with h1 h2
      · simp
      · refine ⟨by simp [complete], .inr (.inr (.inl ⟨rfl, .notResponding, none, by simp [complete], .inr ?_⟩))⟩
        intro h0; rw [h0] at h2; cases h2
      · refine ⟨by simp, .inr (.inl ⟨hu, by simp, by simp, by simp, .inr ⟨hp, by simp, by simp, by simpa using h1⟩⟩)⟩
  · cases h
    refine ⟨by simp [complete], .inr (.inr (.inl ⟨rfl, .ok, _, by simp [complete]; rfl, .inl rfl⟩))⟩

/-! ### The outside world -/

/-- A micro-op leaves the transport and the coming moves as they are. -/
theorem microStep_world {s t : State} (h : microStep s = .next t) : t.transport = s.transport ∧ t.agenda = s.agenda := by
  rcases microStep_cases h with ⟨-, rfl⟩ | ⟨-, rfl⟩ | ⟨b, -, rfl⟩ | ⟨k, -, rfl⟩ | ⟨i, -, -, rfl⟩ | ⟨-, -, rfl⟩ | ⟨-, -, rfl⟩ |
    ⟨-, -, rfl⟩ | ⟨-, -, rfl⟩ | ⟨-, rfl⟩ | ⟨rfl, -⟩ <;> try simp [complete]
  rcases pollDecide_cases s with ⟨-, e⟩ | ⟨-, e⟩ | e <;> rw [e] <;> simp [complete]

/-- So does an acceptance step. -/
theorem present_world {r : Request} {c : Option FaultCode} {n : Nat} {us : List MicroOp} {s t : State}
    (h : present r c n us s = .next t) : t.transport = s.transport ∧ t.agenda = s.agenda := by
  unfold present at h
  split at h
  · cases h; exact ⟨rfl, rfl⟩
  · cases h; simp [raiseFault_fields]
  · split at h <;> cases h <;> simp [raiseFault_fields]

theorem exec_request_world {r : Request} {s t : State} (h : exec (decodeRequest r) s = .next t) :
    t.transport = s.transport ∧ t.agenda = s.agenda := by
  unfold decodeRequest at h
  split_ifs at h <;>
    simp only [exec, execReqIdentify, execReqRead, execReqPageProgram, execReqSectorErase, execReqChipErase, execReqReserved5,
      execReqReserved6, execReqReserved7] at h <;> exact present_world h

/-- A step uses up at most the next move, and only the transport's own moves change the transport. -/
theorem step_world {s t : State} (h : step s = .next t) :
    (t.agenda = s.agenda ∧ t.transport = s.transport) ∨
    ∃ m, s.agenda = m :: t.agenda ∧
      t.transport = (match m with
        | .stall => .stalled
        | .resume => .live
        | .engine | .request _ | .await _ | .reset => s.transport) := by
  have eng : ∀ a, engineTurn { s with agenda := a } = .next t → t.transport = s.transport ∧ t.agenda = a := by
    intro a h
    by_cases hm : s.mode = .run
    · exact microStep_world ((engineTurn_run (s := { s with agenda := a }) hm).symm.trans h)
    · rw [engineTurn_not_run (s := { s with agenda := a }) hm] at h
      cases h; exact ⟨rfl, rfl⟩
  unfold step takeTurn at h
  split at h
  · obtain ⟨h1, h2⟩ := eng s.agenda h
    exact .inl ⟨h2, h1⟩
  · rename_i more ha
    obtain ⟨h1, h2⟩ := eng more h
    exact .inr ⟨.engine, h2 ▸ ha, h1⟩
  · rename_i r more ha
    obtain ⟨h1, h2⟩ := exec_request_world h
    exact .inr ⟨.request r, (show t.agenda = more from h2) ▸ ha, h1⟩
  · rename_i r more ha
    split at h
    · obtain ⟨h1, h2⟩ := exec_request_world h
      exact .inr ⟨.await r, (show t.agenda = more from h2) ▸ ha, h1⟩
    · obtain ⟨h1, h2⟩ := eng s.agenda h
      exact .inl ⟨h2, h1⟩
  · rename_i more ha
    cases h
    exact .inr ⟨.reset, by simpa [resetInput] using ha, by simp [resetInput]⟩
  · rename_i more ha; cases h; exact .inr ⟨_, ha, rfl⟩
  · rename_i more ha; cases h; exact .inr ⟨_, ha, rfl⟩

/-! ### The premises along a run -/

theorem transportLive_reaches {s t : State} (h : TransportLive s) (hr : Reaches s t) : TransportLive t :=
  fun u hu => h u (reaches_trans hr hu)

theorem chipEventuallyReady_reaches {s t : State} (h : ChipEventuallyReady s) (hr : Reaches s t) : ChipEventuallyReady t :=
  fun u hu => h u (reaches_trans hr hu)

/-- The premise of a state from its own clause and that of its successor. -/
theorem transportLive_of_next {s t : State} (hs : step s = .next t) (h : TransportLive t)
    (h0 : s.mode = .run → AtExchange s →
      Until (fun u => u.mode = .run) (fun u => CutComes u ∨ (EngineMoves u ∧ u.transport = .live)) s) : TransportLive s := by
  intro u hu
  rcases reaches_cases hu with rfl | ⟨v, hv, hr⟩
  · exact h0
  · rw [hs] at hv; cases hv
    exact h u hr

theorem chipEventuallyReady_of_next {s t : State} (hs : step s = .next t) (h : ChipEventuallyReady t)
    (h0 : pollState s = .polling → Until (fun u => pollState u = .polling)
      (fun u => CutComes u ∨ (pollState u = .polling ∧ u.pollPhase = .pCsd ∧ busy u.st = false)) s) :
    ChipEventuallyReady s := by
  intro u hu
  rcases reaches_cases hu with rfl | ⟨v, hv, hr⟩
  · exact h0
  · rw [hs] at hv; cases hv
    exact h u hr

/-- At rest for good, no poll is left. -/
theorem chipEventuallyReady_of_rest {s : State} (hs : step s = .next s) (hp : pollState s = .idle) : ChipEventuallyReady s := by
  intro u hu
  have : u = s := reaches_induct (p := fun u => u = s) (fun a b h1 h2 => by rw [h1, hs] at h2; cases h2; rfl) hu rfl
  subst this
  intro h; rw [hp] at h; cases h

/-- A transport that is live and that no coming move stalls completes every exchange. -/
theorem transportLive_of_live {s : State} (hl : s.transport = .live) (hn : Turn.stall ∉ s.agenda) : TransportLive s := by
  intro t hr hm hx
  clear hx
  obtain ⟨hl, hn⟩ : t.transport = .live ∧ Turn.stall ∉ t.agenda := by
    refine reaches_induct (p := fun u => u.transport = .live ∧ Turn.stall ∉ u.agenda) ?_ hr ⟨hl, hn⟩
    rintro a b ⟨h1, h2⟩ hs
    rcases step_world hs with ⟨e1, e2⟩ | ⟨m, e1, e2⟩
    · exact ⟨e2.trans h1, e1 ▸ h2⟩
    · rw [e1] at h2
      simp only [List.mem_cons, not_or] at h2
      refine ⟨?_, h2.2⟩
      cases m <;> first | exact e2.trans h1 | exact e2 | exact absurd rfl h2.1
  clear hr
  generalize hk : t.agenda.length = k
  induction k using Nat.strong_induction_on generalizing t with
  | _ k ih =>
    rcases run_moves hm with hc | ⟨more, he, -⟩ | ⟨more, tr, hs, hlt⟩
    · exact .now (.inl hc)
    · exact .now (.inr ⟨he, hl⟩)
    · rcases step_world hs with ⟨e1, -⟩ | ⟨m, e1, e2⟩
      · rw [show more = t.agenda from e1] at hlt; exact absurd hlt (Nat.lt_irrefl _)
      · have hn' : Turn.stall ∉ more := fun h => hn (by rw [e1]; exact List.mem_cons_of_mem _ h)
        have htr : tr = .live := by
          rw [e1] at hn
          simp only [List.mem_cons, not_or] at hn
          cases m <;> first | exact (show tr = t.transport from e2).trans hl | exact e2 | exact absurd rfl hn.1
        exact .later hm hs (ih more.length (hk ▸ hlt) _ hm htr hn' rfl)

end Sys2Proof.Machine
end

