-- ==== Sys2Proof/Laws/Memory.lean ====
section
/-! SUPPORT. The memory of the destination buffers: every write keeps the canonical form, and a read after a write gives the byte
written at that address and the byte before at every other (20_memory.md R37). -/

namespace Sys2Proof.Machine

theorem wf_nil : Memory.wf [] = true := rfl

theorem wf_iff (m : Memory) : Memory.wf m = true ↔ m.Pairwise fun x y => x.1 < y.1 := by
  simp [Memory.wf]

/-- The addresses after a write are those before it and the one written. -/
theorem mem_memWrite {m : Memory} {i : Nat} {v : Byte} {c : Host.Cell} (h : c ∈ memWrite m i v) :
    c = (i, v) ∨ c ∈ m := by
  induction m with
  | nil => simpa [memWrite] using h
  | cons d m ih =>
    obtain ⟨a, w⟩ := d
    unfold memWrite at h
    split at h
    · simpa using h
    · split at h
      · simp only [List.mem_cons] at h ⊢; tauto
      · simp only [List.mem_cons] at h ⊢
        rcases h with h | h
        · exact .inr (.inl h)
        · rcases ih h with h | h <;> tauto

/-- A write keeps the canonical form. -/
theorem wf_memWrite {m : Memory} (h : Memory.wf m = true) (i : Nat) (v : Byte) :
    Memory.wf (memWrite m i v) = true := by
  rw [wf_iff] at *
  induction m with
  | nil => simp [memWrite]
  | cons d m ih =>
    obtain ⟨a, w⟩ := d
    rw [List.pairwise_cons] at h
    unfold memWrite
    split
    · refine List.pairwise_cons.2 ⟨?_, List.pairwise_cons.2 h⟩
      intro c hc
      rcases List.mem_cons.1 hc with rfl | hc
      · assumption
      · exact lt_trans ‹i < a› (h.1 c hc)
    · split
      · rename_i he; subst he
        exact List.pairwise_cons.2 h
      · refine List.pairwise_cons.2 ⟨?_, ih h.2⟩
        intro c hc
        rcases mem_memWrite hc with rfl | hc
        · show a < i; omega
        · exact h.1 c hc

/-- A read after a write: the byte written at its address, the byte before at every other. -/
theorem memRead_memWrite (m : Memory) (i : Nat) (v : Byte) (a : Nat) :
    memRead (memWrite m i v) a = if a = i then some v else memRead m a := by
  induction m with
  | nil => simp [memWrite, memRead, eq_comm]
  | cons d m ih =>
    obtain ⟨b, w⟩ := d
    unfold memWrite
    split
    · simp [memRead, eq_comm]
    · split
      · rename_i he; subst he
        by_cases hb : a = i
        · simp [memRead, hb]
        · simp [memRead, hb, Ne.symm hb]
      · simp only [memRead, ih]
        split <;> split <;> first | rfl | omega

/-- Two offsets of one buffer lie at two addresses (R37). -/
theorem dstAddr_inj (s : State) {i j : Nat} : dstAddr s i = dstAddr s j ↔ i = j := by
  unfold dstAddr
  cases s.req <;> simp

end Sys2Proof.Machine
end

