-- ==== Sys2Proof/Laws/PerInstr.lean ====
section
/-! SUPPORT. What holds of every instruction as syntax, said per constructor. -/

/-! ### The command part (30_encoding.md R55, R56, R59)

A wire instruction's command part is one of the seven opcodes, followed by nothing (F-OP) or by three address bytes
(F-OPA); a request puts no byte on the wire. -/

/-- The command part is empty, or one of the F-OP opcodes alone, or one of the F-OPA opcodes and three bytes. -/
def Sys2Proof.Laws.CommandPart.Statement (i : Sys2Proof.Instr) : Prop :=
  match Sys2Proof.commandBytes i with
  | [] => ∃ r, Sys2Proof.encode i = .request r
  | [b] => b = 0x9F ∨ b = 0xC7 ∨ b = 0x06 ∨ b = 0x05
  | b :: bytes => (b = 0x03 ∨ b = 0x02 ∨ b = 0x20) ∧ bytes.length = 3

namespace Sys2Proof.Laws.CommandPart

theorem readId : Statement .readId := .inl rfl
theorem readData (a : Addr) : Statement (.readData a) := ⟨.inl rfl, rfl⟩
theorem pageProgram (a : Addr) : Statement (.pageProgram a) := ⟨.inr (.inl rfl), rfl⟩
theorem sectorErase (a : Addr) : Statement (.sectorErase a) := ⟨.inr (.inr rfl), rfl⟩
theorem chipErase : Statement .chipErase := .inr (.inl rfl)
theorem writeEnable : Statement .writeEnable := .inr (.inr (.inl rfl))
theorem readStatus1 : Statement .readStatus1 := .inr (.inr (.inr rfl))
theorem reqIdentify (f : Fields) : Statement (.reqIdentify f) := ⟨_, rfl⟩
theorem reqRead (f : Fields) : Statement (.reqRead f) := ⟨_, rfl⟩
theorem reqPageProgram (f : Fields) : Statement (.reqPageProgram f) := ⟨_, rfl⟩
theorem reqSectorErase (f : Fields) : Statement (.reqSectorErase f) := ⟨_, rfl⟩
theorem reqChipErase (f : Fields) : Statement (.reqChipErase f) := ⟨_, rfl⟩
theorem reqReserved5 (f : Fields) : Statement (.reqReserved5 f) := ⟨_, rfl⟩
theorem reqReserved6 (f : Fields) : Statement (.reqReserved6 f) := ⟨_, rfl⟩
theorem reqReserved7 (f : Fields) : Statement (.reqReserved7 f) := ⟨_, rfl⟩

end Sys2Proof.Laws.CommandPart
end

