-- ==== Sys2Proof/Tests/Slice0.lean ====
section
/-! SUPPORT. The model's own tests, from the vectors of 95_test_vectors.md and the tables of 30_encoding.md and
70_reset_and_hazards.md: the ill-formed requests WellFormed refuses, the words of every row decoded, at most two small steps per
instruction, and a witness for the hypotheses of every statement. -/

namespace Sys2Proof.Tests

open Sys2Proof Sys2Proof.Machine Sys2Proof.Claims

/-! ### Small states -/

/-- The power-on state with the host about to present `r`. -/
def presenting (r : Request) : State := { State.reset with agenda := [.request r] }

/-- The request `r` in progress at index `ip`, with the given select level and the chip's coming answers. -/
def midway (r : Request) (ip : Nat) (cs : Bool) (chip : List Byte) : State :=
  { State.reset with
    csN := cs, mode := .run, req := some r, n := lengthOf r, script := scriptOf r, ip := ip, chip := chip }

/-- FAULTED after a reserved code. -/
def faulted : State := { State.reset with mode := .faulted, fault := some .illegalOp }

/-- The step went on, and the next state has the property. -/
def after (a : Answer) (p : State → Bool) : Bool :=
  match a with
  | .next t => p t
  | .fault _ => false
  | .refused _ => false

def identify : Request := { op := 0 }
def read (a : Addr) (k cap : Nat) : Request := { op := 1, addr := a, len := BitVec.ofNat 32 k, dstCap := cap }
/-- A READ with its buffer at `base`. -/
def readTo (a : Addr) (k base : Nat) : Request := { read a k k with dstBase := base }
def program (a : Addr) (k : Nat) (src : List Byte) : Request := { op := 2, addr := a, len := BitVec.ofNat 32 k, src := src }
def erase (a : Addr) : Request := { op := 3, addr := a }
def eraseChip : Request := { op := 4 }

/-! ### WellFormed refuses, check by check -/

theorem test_wellFormed_reserved : (Instr.reqReserved5 {}).wellFormed = false ∧ (Instr.reqReserved6 {}).wellFormed = false ∧
    (Instr.reqReserved7 {}).wellFormed = false := by decide
theorem test_wellFormed_dst : (Instr.reqRead { len := 17, dstCap := 16 }).wellFormed = false ∧
    (Instr.reqRead { len := 16, dstCap := 16 }).wellFormed = true := by decide
theorem test_wellFormed_src : (Instr.reqPageProgram { len := 4, src := [1, 2, 3] }).wellFormed = false ∧
    (Instr.reqPageProgram { len := 4, src := [1, 2, 3, 4] }).wellFormed = true := by decide

/-! ### Words written out from R59 and R61 (V11, V13, V14) -/

theorem test_decode_readId : decodeFrame [0b10011111] = .ok (.readId, []) := by decide
theorem test_decode_readData : decodeFrame [0b00000011, 0x12, 0x34, 0x56] = .ok (.readData 0x123456, []) := by decide
theorem test_decode_pageProgram :
    decodeFrame [0b00000010, 0x00, 0x01, 0x00, 0xAA] = .ok (.pageProgram 0x000100, [0xAA]) := by decide
theorem test_decode_sectorErase : decodeFrame [0b00100000, 0xAB, 0xCD, 0xEF] = .ok (.sectorErase 0xABCDEF, []) := by decide
theorem test_decode_chipErase : decodeFrame [0b11000111] = .ok (.chipErase, []) := by decide
theorem test_decode_writeEnable : decodeFrame [0b00000110] = .ok (.writeEnable, []) := by decide
theorem test_decode_readStatus1 : decodeFrame [0b00000101] = .ok (.readStatus1, []) := by decide
theorem test_decode_requests :
    decodeRequest { op := 0b000 } = .reqIdentify {} ∧ decodeRequest { op := 0b001, len := 16 } = .reqRead { len := 16 } ∧
    decodeRequest { op := 0b010, src := [9] } = .reqPageProgram { src := [9] } ∧
    decodeRequest { op := 0b011, addr := 0x1234 } = .reqSectorErase { addr := 0x1234 } ∧
    decodeRequest { op := 0b100 } = .reqChipErase {} ∧ decodeRequest { op := 0b101 } = .reqReserved5 {} ∧
    decodeRequest { op := 0b110 } = .reqReserved6 {} ∧ decodeRequest { op := 0b111 } = .reqReserved7 {} := by decide
theorem test_decode_rejects :
    decodeFrame [] = .error .noOpcode ∧ decodeFrame [0x00] = .error (.unknownOpcode 0x00) ∧
    decodeFrame [0x04] = .error (.unknownOpcode 0x04) ∧ decodeFrame [0x03, 0x12, 0x34] = .error (.addressCut 0x03) := by
  decide
theorem test_decode_bracket :
    decodeBracket [.sel, .tx 0x03, .tx 0x12, .tx 0x34, .tx 0x56, .rx 7, .desel] = some (.readData 0x123456, [.rx 7]) ∧
    decodeBracket [.sel, .tx 0xC7, .desel] = some (.chipErase, []) ∧
    decodeBracket [.sel, .tx 0xC7, .tx 0x00, .desel] = none := by decide
/-- A READ's bracket as the trace holds it: its bus events decode, the `DW` left in does not (log 22). -/
theorem test_decode_bracket_dw :
    decodeBracket ([.sel, .tx 0x03, .tx 0, .tx 0x10, .tx 0, .rx 7, .dw 0 7, .desel].filter isBus) =
      some (.readData 0x001000, [.rx 7]) ∧
    decodeBracket [.sel, .tx 0x03, .tx 0, .tx 0x10, .tx 0, .rx 7, .dw 0 7, .desel] = none := by decide

/-- V1 to V5. -/
theorem test_addrBytes : addrBytes 0x000000 = [0x00, 0x00, 0x00] ∧ addrBytes 0xFFFFFF = [0xFF, 0xFF, 0xFF] ∧
    addrBytes 0xABCDEF = [0xAB, 0xCD, 0xEF] ∧ addrBytes 0x001000 = [0x00, 0x10, 0x00] ∧
    addrBytes 0x000100 = [0x00, 0x01, 0x00] := by decide
/-- V6 to V10. -/
theorem test_identifier : identifier ⟨0, 0, 0⟩ = 0 ∧ identifier ⟨0xFF, 0xFF, 0xFF⟩ = 0xFFFFFF ∧
    identifier ⟨1, 2, 3⟩ = 0x010203 ∧ identifier ⟨0x80, 0x00, 0x01⟩ = 0x800001 ∧
    identifier ⟨0xEF, 0x40, 0x16⟩ = 0xEF4016 := by decide

/-! ### Words of the opcode table, placed and run -/

theorem test_table_wire : decodeTableWord 8 0x9F = some .readId ∧ decodeTableWord 32 0x56341203 = some (.readData 0x123456) ∧
    decodeTableWord 32 0x00000002 = some (.pageProgram 0) ∧ decodeTableWord 32 0x00000020 = some (.sectorErase 0) ∧
    decodeTableWord 8 0xC7 = some .chipErase ∧ decodeTableWord 8 0x06 = some .writeEnable ∧
    decodeTableWord 8 0x05 = some .readStatus1 := by decide
theorem test_table_request : decodeTableWord 3 0 = some (.reqIdentify {}) ∧ decodeTableWord 3 1 = some (.reqRead {}) ∧
    decodeTableWord 3 2 = some (.reqPageProgram {}) ∧ decodeTableWord 3 3 = some (.reqSectorErase {}) ∧
    decodeTableWord 3 4 = some (.reqChipErase {}) ∧ decodeTableWord 3 5 = some (.reqReserved5 {}) ∧
    decodeTableWord 3 6 = some (.reqReserved6 {}) ∧ decodeTableWord 8 7 = some (.reqReserved7 {}) ∧
    decodeTableWord 8 0xAB = none := by decide
theorem test_placed_wire :
    after (step (State.reset.withFetchWord 8 0x9F)) (fun t => t.trace == [.sel] && t.ip == 1) = true ∧
    after (step (State.reset.withFetchWord 32 0x00100003)) (fun t => t.trace == [.sel] && t.ip == 1) = true ∧
    after (step (State.reset.withFetchWord 32 0x00100002)) (fun t => t.trace == [.sel] && t.ip == 4) = true ∧
    after (step (State.reset.withFetchWord 32 0x00100020)) (fun t => t.trace == [.sel] && t.ip == 4) = true ∧
    after (step (State.reset.withFetchWord 8 0xC7)) (fun t => t.trace == [.sel] && t.ip == 4) = true ∧
    after (step (State.reset.withFetchWord 8 0x06)) (fun t => t.trace == [.sel] && t.ip == 1) = true ∧
    after (step (State.reset.withFetchWord 8 0x05)) (fun t => t.trace == [.sel] && t.ip == 6) = true := by decide
theorem test_placed_request :
    after (step (State.reset.withFetchWord 3 0)) (fun t => t.mode == .run && t.script == identifyScript) = true ∧
    after (step (State.reset.withFetchWord 3 5)) (fun t => t.mode == .faulted && t.fault == some .illegalOp) = true := by
  decide

/-! ### READ_ID (V18) -/

theorem test_readId_rxi : after (exec .readId (midway identify 3 false [0x40]))
    (fun t => t.idBuf == ⟨0, 0x40, 0⟩ && t.ip == 4 && t.trace == [.rx 0x40]) = true := by decide
theorem test_readId_opcode : after (exec .readId (midway identify 1 false []))
    (fun t => t.trace == [.tx 0x9F] && t.ip == 2 && t.csN == false) = true := by decide

/-! ### READ_DATA (V19, V35c) -/

theorem test_readData_rxd : after (exec (.readData 0x001000) (midway (readTo 0x001000 16 0x40) 8 false [0xA5]))
    (fun t => memRead t.dst 0x43 == some 0xA5 && memRead t.dst 3 == none && t.ip == 9 && t.trace == [.rx 0xA5, .dw 3 0xA5])
    = true := by decide
theorem test_readData_addr : after (exec (.readData 0xABCDEF) (midway (read 0xABCDEF 1 1) 2 false []))
    (fun t => t.trace == [.tx 0xAB] && t.ip == 3) = true := by decide

/-! ### PAGE_PROGRAM (V17, V36b) -/

theorem test_pageProgram_zero : after (exec (.pageProgram 0x000100) (midway (program 0x000100 2 [0xAA, 0x55]) 5 false []))
    (fun t => t.trace == [.tx 0x00] && t.ip == 6) = true := by decide
theorem test_pageProgram_payload :
    after (exec (.pageProgram 0x000100) (midway (program 0x000100 2 [0xAA, 0x55]) 9 false []))
    (fun t => t.trace == [.tx 0x55] && t.ip == 10) = true := by decide

/-! ### SECTOR_ERASE (V15, V16) -/

theorem test_sectorErase_csa : after (exec (.sectorErase 0x001234) (midway (erase 0x001234) 3 true []))
    (fun t => t.csN == false && t.ip == 4 && t.trace == [.sel]) = true := by decide
theorem test_sectorErase_csd : after (exec (.sectorErase 0x001234) (midway (erase 0x001234) 8 false []))
    (fun t => t.csN == true && t.ip == 9 && t.trace == [.desel]) = true := by decide

/-! ### CHIP_ERASE (V45) -/

theorem test_chipErase_opcode : after (exec .chipErase (midway eraseChip 4 false []))
    (fun t => t.trace == [.tx 0xC7] && t.ip == 5) = true := by decide
theorem test_chipErase_elsewhere :
    (match exec .chipErase (midway identify 0 true []) with | .fault r => r == .frameNotInProgress | _ => false) = true := by
  decide

/-! ### WRITE_ENABLE (R83) -/

theorem test_writeEnable_opcode : after (exec .writeEnable (midway (erase 0) 1 false []))
    (fun t => t.trace == [.tx 0x06] && t.ip == 2) = true := by decide

/-! ### READ_STATUS_1 (the phase table of 95_test_vectors.md 2.3, steps 4 and 8; V29) -/

theorem test_readStatus1_busy :
    after (exec .readStatus1 { midway eraseChip 6 false [] with pollPhase := .pCsd, st := 0x01 })
    (fun t => t.csN == true && t.st == 0x01 && t.pollPhase == .pCsa && t.pollCount == 1 && t.ip == 6) = true := by decide
theorem test_readStatus1_bounded :
    after (exec .readStatus1 { midway eraseChip 6 false [] with pollPhase := .pCsd, st := 0x01, pollLimit := some 1 })
    (fun t => t.trace == [.desel, .done .notResponding none] && t.mode == .idle && t.csN == true && t.st == 0) = true := by
  decide

/-! ### The requests (V35, V50, V35e, V36d, V36, V53, V56, V12, V48, V49) -/

theorem test_reqIdentify_ignores : after (exec (.reqIdentify { addr := 0x123456, len := 9 }) State.reset)
    (fun t => t.mode == .run && t.n == 0 && t.ip == 0 && t.trace == [] && t.script == identifyScript) = true := by decide
theorem test_reqIdentify_busy : after (exec (.reqIdentify {}) (midway (read 0 4 4) 3 false []))
    (fun t => t.trace == [.desel, .fault .busyRequest] && t.mode == .faulted && t.csN == true && t.faultIp == some 3)
    = true := by decide
theorem test_reqRead_accepted : after (exec (.reqRead { len := 16, dstCap := 16 }) State.reset)
    (fun t => t.mode == .run && t.n == 16 && t.script.length == 23) = true := by decide
theorem test_reqRead_small : after (exec (.reqRead { len := 16, dstCap := 8 }) State.reset)
    (fun t => t.trace == [.fault .dstTooSmall] && t.mode == .faulted && t.n == 0) = true := by decide
theorem test_reqPageProgram_short : after (exec (.reqPageProgram { len := 4, src := [1, 2, 3] }) State.reset)
    (fun t => t.trace == [.fault .srcTooShort] && t.mode == .faulted) = true := by decide
/-- V36 to V42. -/
theorem test_programLength : ([0, 1, 255, 256, 257, 300, 0xFFFFFFFF].map fun k => programLength { len := k }) =
    [0, 1, 255, 256, 256, 256, 256] := by decide
theorem test_reqSectorErase_ignores : after (exec (.reqSectorErase { len := 5 }) State.reset)
    (fun t => t.mode == .run && t.n == 0 && t.script.length == 11) = true := by decide
theorem test_reqChipErase_faulted : after (exec (.reqChipErase {}) faulted) (fun t => t == faulted) = true := by decide
theorem test_reqReserved5 : after (exec (.reqReserved5 {}) State.reset)
    (fun t => t.trace == [.fault .illegalOp] && t.fault.map FaultCode.number == some 1) = true := by decide
theorem test_reqReserved6_busy : after (exec (.reqReserved6 {}) (midway (erase 0) 3 true []))
    (fun t => t.trace == [.fault .busyRequest] && t.fault.map FaultCode.number == some 2) = true := by decide
theorem test_reqReserved7_first : after (exec (.reqReserved7 { len := 16 }) State.reset)
    (fun t => t.fault == some .illegalOp && t.faultReq == some { op := 7, len := 16 }) = true := by decide

/-! ### RET and reset (V19a, V59, V62) -/

theorem test_ret_identify : after (step { midway identify 6 true [] with idBuf := ⟨0x12, 0x34, 0x56⟩ })
    (fun t => t.trace == [.done .ok (some 0x123456)] && t.mode == .idle && t.ip == 0 && t.idBuf == ⟨0, 0, 0⟩ &&
      t.req == none && t.csN == true) = true := by decide
theorem test_reset_in_bracket : after (step { midway (read 0 4 4) 3 false [] with agenda := [.reset] })
    (fun t => t.trace == [.desel, .reset] && t.mode == .idle && t.csN == true && t.req == none) = true := by decide
theorem test_reset_keeps_fault : after (step { faulted with fault := some .dstTooSmall, agenda := [.reset] })
    (fun t => t.trace == [.reset] && t.mode == .idle && t.fault == some .dstTooSmall) = true := by decide

/-! ### The end of a run and the liveness premises (R131, R132) -/

/-- Two READs to two buffers, an IDENTIFY between them: the result shows both buffers. -/
theorem test_result_two_buffers :
    runResult { State.reset with agenda := [.await (readTo 0 2 0), .await identify, .reset, .await (readTo 9 1 16)] }
      { State.reset with dst := [(0, 0xA0), (16, 0xB0)], trace := [.reset] } =
    { trace := [.reset], destinations := [[some 0xA0, none], [some 0xB0]] } := by decide
theorem test_final_leftover_moves : Final { State.reset with agenda := [.engine, .resume] } := ⟨rfl, rfl, rfl, rfl⟩
theorem test_final_needs_all_presented : ¬ Final { State.reset with agenda := [.engine, .await identify] } :=
  fun h => absurd h.presented (by decide)
theorem test_final_needs_no_fault : ¬ Final { State.reset with fault := some .busyRequest } := fun h => by cases h.noFault

/-- A transport that is stalled in the middle of a frame and resumes meets `TransportLive`. -/
theorem test_transportLive_resumes : TransportLive { midway identify 1 false [] with transport := .stalled, agenda := [.resume] } :=
  transportLive_of_next rfl (transportLive_of_live rfl (by decide)) fun _ _ =>
    .later rfl rfl (.now (.inr ⟨⟨rfl, .inl rfl⟩, rfl⟩))
/-- One that stays stalled there does not. -/
theorem test_transportLive_excludes_hang : ¬ TransportLive { midway identify 1 false [] with transport := .stalled } := by
  intro h
  have key : ∀ u, Until (fun u => u.mode = .run) (fun u => CutComes u ∨ (EngineMoves u ∧ u.transport = .live)) u →
      u ≠ { midway identify 1 false [] with transport := .stalled } := by
    intro u hu
    induction hu with
    | now hp =>
      rintro rfl
      rcases hp with ⟨-, ⟨_, h⟩ | ⟨_, _, h⟩⟩ | ⟨-, h⟩ <;> cases h
    | later _ hs _ ih => rintro rfl; cases hs; exact ih rfl
  exact key _ (h _ (reaches_refl _) rfl (.inl ⟨_, rfl⟩)) rfl

/-! ### Witnesses: for every statement with hypotheses, a state and operands that meet them all

The hypotheses of each are written as in the statement; boundary values of each clause are taken together. -/

/-- A request in progress meets the invariant when it is an accepted one, at an index of its script, with the select
level of that index. -/
theorem inv_midway {r : Request} {ip : Nat} {cs : Bool} {chip : List Byte} (ha : accepted r = true)
    (hi : ip < (scriptOf r).length) (hc : cs = levelAtIp (midway r ip cs chip)) : EngineInv (midway r ip cs chip) where
  dst := rfl
  pollLimit := by simp [midway, State.reset, Config.pollLimitDefault]
  run _ := ⟨⟨r, rfl, ha, rfl, rfl⟩, hi, hc, fun _ => ⟨rfl, rfl⟩, fun l h => by cases h⟩
  idle h := by cases h
  faulted h := by cases h

theorem atRest_presenting (r : Request) : AtRest (presenting r) := ⟨rfl, rfl, rfl, rfl, rfl, rfl, rfl, rfl, rfl⟩

/-- The same with answers lined up and a bound. -/
theorem atRest_with (r : Request) (chip : List Byte) (l : Option Nat) :
    AtRest { presenting r with chip := chip, pollLimit := l } := ⟨rfl, rfl, rfl, rfl, rfl, rfl, rfl, rfl, rfl⟩

theorem witness_DecodeOfEncodeIsTheInstruction : encode (.sectorErase 0xFFFFFF) = .wire [0x20, 0xFF, 0xFF, 0xFF] := by
  decide
theorem witness_DecodedBytesAreTheEncoding : decodeFrame [0x02, 0, 0, 0, 7] = .ok (.pageProgram 0, [7]) := by decide
theorem witness_OnlySevenOpcodesDecode : (0xAB : Byte) ∉ [0x9F, 0xC7, 0x06, 0x05, 0x03, 0x02, 0x20] := by decide
theorem witness_BracketsDecodeToTheirFrames :
    dataPhaseFits .readId [.rx 1, .rx 2, .rx 3] = true ∧ dataPhaseFits .readStatus1 [.rx 1] = true ∧
    dataPhaseFits (.readData 5) [] = true ∧ dataPhaseFits (.pageProgram 5) [.tx 1] = true ∧
    dataPhaseFits .writeEnable [] = true ∧ dataPhaseFits .chipErase [] = true ∧ dataPhaseFits (.sectorErase 5) [] = true := by
  decide
theorem witness_StepRunsTheDecodedInstruction :
    (∃ s : State, s.mode = .run ∧ decodeFrame (bracketBytes (bracketAt s.script s.ip)) = .ok (.readId, []) ∧
      bracketAt s.script s.ip = frameOf .readId s ∧ s.agenda = []) ∧
    (∃ s : State, s.mode = .run ∧ decodeFrame (bracketBytes (bracketAt s.script s.ip)) = .ok (.readStatus1, []) ∧
      bracketAt s.script s.ip = frameOf .readStatus1 s ∧ s.agenda = [.engine]) ∧
    (∃ s : State, s.agenda = [.request identify]) ∧ ∃ s : State, s.agenda = [.await identify] ∧ s.mode = .idle :=
  ⟨⟨midway identify 5 false [], by decide⟩, ⟨{ midway eraseChip 6 true [] with agenda := [.engine] }, by decide⟩,
    ⟨presenting identify, rfl⟩, ⟨{ State.reset with agenda := [.await identify] }, rfl, rfl⟩⟩
theorem witness_FrameFetchedAtEachIndex :
    (EngineInv (midway identify 6 true []) ∧ EngineInv (midway (read 0 0 0) 5 false []) ∧
      EngineInv (midway (program 0 1 [7]) 9 false []) ∧ EngineInv (midway (erase 0) 9 true []) ∧
      EngineInv (midway eraseChip 0 true [])) :=
  ⟨inv_midway rfl (by decide) (by decide), inv_midway (by decide) (by decide) (by decide),
    inv_midway (by decide) (by decide) (by decide), inv_midway rfl (by decide) (by decide),
    inv_midway rfl (by decide) (by decide)⟩
theorem witness_EngineTurnIsTheMicroOpAtIp :
    (∃ s : State, s.agenda = [] ∧ s.mode = .run) ∧ (∃ s : State, s.agenda = [.await identify] ∧ s.mode = .run) ∧
    (∃ s : State, s.agenda = [.engine] ∧ s.mode = .run) ∧ (∃ s : State, s.agenda = [] ∧ s.mode ≠ .run) ∧
    (∃ s : State, s.agenda = [.await identify] ∧ s.mode = .faulted) ∧ ∃ s : State, s.agenda = [.engine] ∧ s.mode ≠ .run :=
  ⟨⟨midway identify 0 true [], by decide⟩, ⟨{ midway identify 0 true [] with agenda := [.await identify] }, by decide⟩,
    ⟨{ midway identify 0 true [] with agenda := [.engine] }, by decide⟩, ⟨State.reset, by decide⟩,
    ⟨{ faulted with agenda := [.await identify] }, by decide⟩, ⟨{ State.reset with agenda := [.engine] }, by decide⟩⟩
theorem witness_CsaAssertsSelect : ∃ s : State, s.mode = .run ∧ s.script[s.ip]? = some .csa ∧ s.csN = true :=
  ⟨midway identify 0 true [], by decide⟩
theorem witness_CsdReleasesSelect : ∃ s : State, s.mode = .run ∧ s.script[s.ip]? = some .csd ∧ s.csN = false :=
  ⟨midway identify 5 false [], by decide⟩
theorem witness_TxTransmitsOneByte :
    (∃ s : State, s.mode = .run ∧ s.script[s.ip]? = some (.tx 0x00) ∧ s.csN = false ∧ s.transport = .live) ∧
    ∃ s : State, s.mode = .run ∧ s.script[s.ip]? = some (.tx 0xFF) ∧ s.csN = false ∧ s.transport = .stalled :=
  ⟨⟨midway (erase 0) 5 false [], by decide⟩,
    ⟨{ midway (erase 0xFFFFFF) 5 false [] with transport := .stalled }, by decide⟩⟩
theorem witness_RxiAndRxdReceiveOneByte :
    (∃ s : State, s.mode = .run ∧ s.script[s.ip]? = some (.rxi 0) ∧ s.csN = false ∧ s.transport = .live) ∧
    (∃ s : State, s.mode = .run ∧ s.script[s.ip]? = some (.rxi 2) ∧ s.csN = false ∧ s.transport = .live) ∧
    (∃ (s : State) (r : Request), s.mode = .run ∧ s.script[s.ip]? = some (.rxd 0) ∧ s.csN = false ∧ s.req = some r ∧
      0 < r.dstCap ∧ s.transport = .live) ∧
    (∃ s : State, s.mode = .run ∧ s.transport = .stalled ∧ s.script[s.ip]? = some (.rxi 1)) ∧
    ∃ s : State, s.mode = .run ∧ s.transport = .stalled ∧ s.script[s.ip]? = some (.rxd 1) ∧ 1 < dstCap s :=
  ⟨⟨midway identify 2 false [], by decide⟩, ⟨midway identify 4 false [], by decide⟩,
    ⟨midway (readTo 0 1 7) 5 false [], readTo 0 1 7, by decide⟩,
    ⟨{ midway identify 3 false [] with transport := .stalled }, by decide⟩,
    ⟨{ midway (read 0 2 2) 6 false [] with transport := .stalled }, by decide⟩⟩
theorem witness_PollRunsOnePhase :
    (∃ s : State, s.mode = .run ∧ s.script[s.ip]? = some .poll ∧ s.pollPhase = .pCsa ∧ s.csN = true) ∧
    (∃ s : State, s.mode = .run ∧ s.script[s.ip]? = some .poll ∧ s.pollPhase = .pTx ∧ s.csN = false) ∧
    (∃ s : State, s.mode = .run ∧ s.script[s.ip]? = some .poll ∧ s.pollPhase = .pRx ∧ s.csN = false ∧
      s.transport = .live) ∧
    (∃ s : State, s.mode = .run ∧ s.script[s.ip]? = some .poll ∧ s.pollPhase = .pRx ∧ s.csN = false ∧
      s.transport = .stalled) ∧
    (∃ s : State, s.mode = .run ∧ s.script[s.ip]? = some .poll ∧ s.pollPhase = .pCsd ∧ s.csN = false ∧
      s.st.getLsbD 0 = false) ∧
    (∃ s : State, s.mode = .run ∧ s.script[s.ip]? = some .poll ∧ s.pollPhase = .pCsd ∧ s.csN = false ∧
      s.st.getLsbD 0 = true ∧ s.pollLimit = some (s.pollCount + 1)) ∧
    ∃ s : State, s.mode = .run ∧ s.script[s.ip]? = some .poll ∧ s.pollPhase = .pCsd ∧ s.csN = false ∧
      s.st.getLsbD 0 = true ∧ s.pollLimit ≠ some (s.pollCount + 1) :=
  ⟨⟨midway eraseChip 6 true [], by decide⟩, ⟨{ midway eraseChip 6 false [] with pollPhase := .pTx }, by decide⟩,
    ⟨{ midway eraseChip 6 false [] with pollPhase := .pRx }, by decide⟩,
    ⟨{ midway eraseChip 6 false [] with pollPhase := .pRx, transport := .stalled }, by decide⟩,
    ⟨{ midway eraseChip 6 false [] with pollPhase := .pCsd, st := 0xFE }, by decide⟩,
    ⟨{ midway eraseChip 6 false [] with pollPhase := .pCsd, st := 0x01, pollLimit := some 1 }, by decide⟩,
    ⟨{ midway eraseChip 6 false [] with pollPhase := .pCsd, st := 0x01 }, by decide⟩⟩
theorem witness_BusyTestIsBitZeroAlone : ∃ s : State, s.mode = .run ∧ s.pollLimit = none ∧ s.script[s.ip]? = some .poll ∧
    s.pollPhase = .pCsd ∧ (0x01 : Byte).getLsbD 0 = (0xFF : Byte).getLsbD 0 ∧
    (0x00 : Byte).getLsbD 0 = (0xFE : Byte).getLsbD 0 :=
  ⟨{ midway eraseChip 6 false [] with pollPhase := .pCsd }, by decide⟩
theorem witness_RetCompletesTheRequest :
    (∃ s : State, s.mode = .run ∧ s.script[s.ip]? = some .ret ∧ s.req = some identify ∧ s.csN = true) ∧
    ∃ s : State, s.mode = .run ∧ s.script[s.ip]? = some .ret ∧ s.req = some eraseChip ∧ s.csN = true :=
  ⟨⟨midway identify 6 true [], by decide⟩, ⟨midway eraseChip 7 true [], by decide⟩⟩
theorem witness_FramesRunTheirMicroOps :
    FrameInProgress .readId (midway identify 0 true []) ∧ FrameInProgress (.readData 3) (midway (read 3 1 1) 5 false []) ∧
    FrameInProgress (.pageProgram 3) (midway (program 3 1 [7]) 8 false []) ∧
    FrameInProgress (.sectorErase 3) (midway (erase 3) 8 false []) ∧ FrameInProgress .chipErase (midway eraseChip 3 true []) ∧
    FrameInProgress .writeEnable (midway eraseChip 2 false []) ∧ FrameInProgress .readStatus1 (midway eraseChip 6 true []) ∧
    ((midway (read 3 1 1) 5 false []).script[5]? = some (.rxd 0) ∧ 0 < dstCap (midway (read 3 1 1) 5 false [])) ∧
    FrameInProgress .readId (midway identify 4 false []) ∧ (midway identify 4 false []).script[4]? = some (.rxi 2) := by
  unfold FrameInProgress; decide
theorem witness_FramesSelectTransmitAndRelease :
    (FrameInProgress .chipErase (midway eraseChip 3 true []) ∧ (midway eraseChip 3 true []).script[3]? = some .csa) ∧
    (FrameInProgress .chipErase (midway eraseChip 4 false []) ∧
      (midway eraseChip 4 false []).script[4]? = some (.tx 0xC7) ∧ (midway eraseChip 4 false []).transport = .live) ∧
    FrameInProgress .chipErase (midway eraseChip 5 false []) ∧ (midway eraseChip 5 false []).script[5]? = some .csd := by
  unfold FrameInProgress; decide
theorem witness_StopsAreNamed :
    (commandBytes .writeEnable ≠ [] ∧ ¬ FrameInProgress .writeEnable State.reset) ∧
    ((midway { op := 1, len := 1 } 5 false []).script[5]? = some (.rxd 0) ∧
      dstCap (midway { op := 1, len := 1 } 5 false []) ≤ 0) ∧ State.reset.script.length ≤ State.reset.ip := by
  unfold FrameInProgress; decide
theorem witness_WholeFrames :
    FrameStarts .writeEnable (midway eraseChip 0 true []) ∧ FrameStarts .chipErase (midway eraseChip 3 true []) ∧
    FrameStarts (.sectorErase 0xFFFFFF) (midway (erase 0xFFFFFF) 3 true []) ∧
    FrameStarts .readId (midway identify 0 true []) ∧
    (FrameStarts (.readData 0) (midway (read 0 0 0) 0 true []) ∧
      (midway (read 0 0 0) 0 true []).n ≤ dstCap (midway (read 0 0 0) 0 true [])) ∧
    FrameStarts (.pageProgram 9) (midway (program 9 2 [1, 2]) 3 true []) ∧
    (midway (program 9 2 [1, 2]) 3 true []).req = some (program 9 2 [1, 2]) ∧
    (midway (program 9 2 [1, 2]) 3 true []).n ≤ (program 9 2 [1, 2]).src.length := by
  unfold FrameStarts FrameInProgress; decide
theorem witness_ReadStatusIterationRuns : ∃ s : State, s.mode = .run ∧ s.script[s.ip]? = some .poll ∧
    s.pollPhase = .pCsa ∧ s.csN = true ∧ s.transport = .live := ⟨midway eraseChip 6 true [], by decide⟩
theorem witness_FaultsRecordTheRequest :
    (∃ t, exec (decodeRequest identify) (midway eraseChip 3 true []) = .next t ∧ t.mode = .faulted) ∧
    ∃ t, exec (decodeRequest identify) State.reset = .next t ∧ t.mode ≠ .faulted :=
  ⟨⟨_, rfl, rfl⟩, ⟨_, rfl, by decide⟩⟩
theorem witness_RequestsStartTheirScripts : State.reset.mode = .idle ∧
    (({ len := 16, dstCap := 16 } : Fields).len.toNat ≤ ({ len := 16, dstCap := 16 } : Fields).dstCap) ∧
    (({} : Fields).len.toNat ≤ ({} : Fields).dstCap) ∧
    (min ({ len := 2, src := [1, 2] } : Fields).len.toNat 256 ≤ ({ len := 2, src := [1, 2] } : Fields).src.length) ∧
    (min ({} : Fields).len.toNat 256 ≤ ({} : Fields).src.length) := by decide
theorem witness_ReservedCodesRaiseIllegalOp : State.reset.mode = .idle ∧ State.reset.csN = true := by decide
theorem witness_UnusedFieldsAreIgnored :
    ({ addr := 5, len := 1 } : Fields).addr = ({ addr := 5, dstCap := 3 } : Fields).addr ∧
    ({ len := 4, dstCap := 4 } : Fields).len = ({ len := 4, dstCap := 4, src := [1] } : Fields).len := by decide
theorem witness_PayloadIsTruncatedAt256 :
    ([1, 2, 3] : List Byte).take (min (2#32 : Len).toNat 256) = ([1, 2, 9] : List Byte).take (min (2#32 : Len).toNat 256) ∧
    min (2#32 : Len).toNat 256 ≤ ([1, 2, 3] : List Byte).length := by decide
theorem witness_FaultRecordIsSticky :
    (∃ t, step { faulted with agenda := [.reset] } = .next t ∧ faulted.fault ≠ none) ∧
    ∃ t, step (presenting { op := 5 }) = .next t ∧ t.fault ≠ (presenting { op := 5 }).fault :=
  ⟨⟨_, rfl, by decide⟩, ⟨_, rfl, by decide⟩⟩
theorem witness_OnlyResetLeavesFaulted : ∃ t, faulted.mode = .faulted ∧ step faulted = .next t := ⟨_, rfl, rfl⟩
theorem witness_ResetAndEnvironment : (∃ s : State, s.agenda = [.reset] ∧ s.csN = false) ∧
    (∃ s : State, s.agenda = [.stall]) ∧ ∃ s : State, s.agenda = [.resume] :=
  ⟨⟨{ midway identify 3 false [] with agenda := [.reset] }, rfl, rfl⟩, ⟨{ State.reset with agenda := [.stall] }, rfl⟩,
    ⟨{ State.reset with agenda := [.resume] }, rfl⟩⟩
theorem witness_StalledTransportHangs :
    (∃ s : State, EngineAlone s ∧ s.mode = .run ∧ s.transport = .stalled ∧ s.script[s.ip]? = some (.tx 0x9F)) ∧
    (∃ s : State, EngineAlone s ∧ s.mode = .run ∧ s.transport = .stalled ∧ s.script[s.ip]? = some (.rxi 2)) ∧
    (∃ s : State, EngineAlone s ∧ s.mode = .run ∧ s.transport = .stalled ∧ s.script[s.ip]? = some (.rxd 0) ∧
      0 < dstCap s) ∧
    (∃ s : State, EngineAlone s ∧ s.mode = .run ∧ s.transport = .stalled ∧ s.script[s.ip]? = some .poll ∧
      s.pollPhase = .pTx) ∧
    ∃ s : State, EngineAlone s ∧ s.mode = .run ∧ s.transport = .stalled ∧ s.script[s.ip]? = some .poll ∧
      s.pollPhase = .pRx := by
  unfold EngineAlone
  exact ⟨⟨{ midway identify 1 false [] with transport := .stalled }, by decide⟩,
    ⟨{ midway identify 4 false [] with transport := .stalled }, by decide⟩,
    ⟨{ midway (read 0 1 1) 5 false [] with transport := .stalled }, by decide⟩,
    ⟨{ midway eraseChip 6 false [] with transport := .stalled, pollPhase := .pTx }, by decide⟩,
    ⟨{ midway eraseChip 6 false [] with transport := .stalled, pollPhase := .pRx }, by decide⟩⟩
theorem witness_InvariantSteps :
    (∃ s t : State, EngineInv s ∧ BusDisciplined s ∧ step s = .next t ∧ s.mode = .run) ∧
    ∃ s t : State, EngineInv s ∧ step s = .next t ∧ s.script[s.ip]? = some .poll :=
  ⟨⟨midway identify 0 true [], _, inv_midway rfl (by decide) (by decide), rfl, rfl, rfl⟩,
    ⟨midway eraseChip 6 true [], _, inv_midway rfl (by decide) (by decide), rfl, rfl⟩⟩
theorem witness_AtMostOneBusEventPerStep : ∃ t, step (midway identify 0 true []) = .next t := ⟨_, rfl⟩
theorem witness_DestinationChangesOnlyByRxd : ∃ t, step (midway (read 0 1 1) 5 false [7]) = .next t ∧
    memRead t.dst 0 ≠ memRead (midway (read 0 1 1) 5 false [7]).dst 0 := ⟨_, rfl, by decide⟩
theorem witness_OneDonePerCompletedRequest : ∃ t, step (midway eraseChip 7 true []) = .next t ∧ t.mode = .idle ∧
    (midway eraseChip 7 true []).pollLimit = none ∧ (midway eraseChip 7 true []).agenda.head? ≠ some .reset :=
  ⟨_, rfl, rfl, rfl, by decide⟩
theorem witness_ReadRequestsNeverPollNorEnable :
    (EngineInv (midway identify 0 true []) ∧ identify.op = 0) ∧
    EngineInv (midway (read 0 1 1) 7 true []) ∧ (read 0 1 1).op = 1 :=
  ⟨⟨inv_midway rfl (by decide) (by decide), rfl⟩, inv_midway (by decide) (by decide) (by decide), rfl⟩
theorem witness_ScriptSizesAndPollIndex : accepted (requestOf 2 { len := 1, src := [7] }) = true ∧
    min ({ len := 1, src := [7] } : Fields).len.toNat 256 ≤ ({ len := 1, src := [7] } : Fields).src.length := by decide
theorem witness_IdentifyRequestRuns : ∃ s : State, AtRest s ∧ s.mode = .idle ∧ s.transport = .live ∧
    s.agenda = [.request (requestOf 0 {})] := ⟨presenting (requestOf 0 {}), atRest_presenting _, rfl, rfl, rfl⟩
theorem witness_ReadRequestRuns : ∃ (s : State) (f : Fields), AtRest s ∧ s.mode = .idle ∧ s.transport = .live ∧
    s.agenda = [.request (requestOf 1 f)] ∧ f.len.toNat ≤ f.dstCap ∧ s.fault = none :=
  ⟨presenting (requestOf 1 { len := 2, dstCap := 3, dstBase := 5 }), _, atRest_presenting _, rfl, rfl, rfl, by decide, rfl⟩
theorem witness_ReadDeliversTheFlashBytes : ∃ (flash : Nat → Byte) (s : State) (f : Fields) (vs more : List Byte),
    AtRest s ∧ s.mode = .idle ∧ s.transport = .live ∧ s.agenda = [.request (requestOf 1 f)] ∧ f.len.toNat ≤ f.dstCap ∧
    s.chip = vs ++ more ∧ vs.length = f.len.toNat ∧ ChipReadAutoInc flash f.addr vs :=
  ⟨fun _ => 7, { presenting (requestOf 1 { addr := 0x3FFFFF, len := 2, dstCap := 2 }) with chip := [7, 7] }, _, [7, 7], [],
    atRest_with _ _ _, rfl, rfl, rfl, by decide, rfl, rfl, by
      intro i v h _
      have := List.mem_of_getElem? h
      simpa using this⟩
theorem witness_PageProgramRequestRuns : ∃ (s : State) (f : Fields) (bs : List Byte) (v : Byte) (more : List Byte),
    AtRest s ∧ s.mode = .idle ∧ s.transport = .live ∧ s.agenda = [.request (requestOf 2 f)] ∧
    min f.len.toNat 256 ≤ f.src.length ∧ s.chip = bs ++ v :: more ∧ (∀ b ∈ bs, b.getLsbD 0 = true) ∧
    v.getLsbD 0 = false ∧ ∀ l, s.pollLimit = some l → bs.length < l :=
  ⟨{ presenting (requestOf 2 { len := 1, src := [9] }) with chip := [0x01, 0xFE], pollLimit := some 2 }, _, [0x01], 0xFE, [],
    atRest_with _ _ _, rfl, rfl, rfl, by decide, rfl, by decide, by decide, by intro l h; cases h; decide⟩
theorem witness_EraseRequestsRun : (∃ (s : State) (f : Fields) (bs : List Byte) (v : Byte) (more : List Byte),
    AtRest s ∧ s.mode = .idle ∧ s.transport = .live ∧ s.agenda = [.request (requestOf 3 f)] ∧ s.chip = bs ++ v :: more ∧
    (∀ b ∈ bs, b.getLsbD 0 = true) ∧ v.getLsbD 0 = false ∧ ∀ l, s.pollLimit = some l → bs.length < l) ∧
    ∃ (s : State) (f : Fields) (bs : List Byte) (v : Byte) (more : List Byte),
    AtRest s ∧ s.mode = .idle ∧ s.transport = .live ∧ s.agenda = [.request (requestOf 4 f)] ∧ s.chip = bs ++ v :: more ∧
    (∀ b ∈ bs, b.getLsbD 0 = true) ∧ v.getLsbD 0 = false ∧ ∀ l, s.pollLimit = some l → bs.length < l :=
  ⟨⟨{ presenting (requestOf 3 {}) with chip := [0x00] }, _, [], 0x00, [], atRest_with _ _ none, rfl, rfl, rfl, rfl,
      by decide, by decide, by intro l h; cases h⟩,
    ⟨{ presenting (requestOf 4 {}) with chip := [0x03, 0x02] }, _, [0x03], 0x02, [], atRest_with _ _ none, rfl, rfl, rfl,
      rfl, by decide, by decide, by intro l h; cases h⟩⟩
theorem witness_BoundedPollGivesUp : ∃ (s : State) (f : Fields) (bs more : List Byte), AtRest s ∧ s.mode = .idle ∧
    s.transport = .live ∧ s.agenda = [.request (requestOf 4 f)] ∧ s.chip = bs ++ more ∧
    (∀ b ∈ bs, b.getLsbD 0 = true) ∧ bs ≠ [] ∧ s.pollLimit = some bs.length :=
  ⟨{ presenting (requestOf 4 {}) with chip := [0x01], pollLimit := some 1 }, _, [0x01], [], atRest_with _ _ _, rfl, rfl, rfl,
    rfl, by decide, by decide, rfl⟩
theorem witness_BusyChipKeepsPolling : ∃ (s : State) (bs more : List Byte), EngineAlone s ∧ s.mode = .run ∧
    s.script[s.ip]? = some .poll ∧ s.pollPhase = .pCsa ∧ s.csN = true ∧ s.transport = .live ∧ s.pollLimit = none ∧
    s.chip = bs ++ more ∧ ∀ b ∈ bs, b.getLsbD 0 = true :=
  ⟨midway eraseChip 6 true [0xFF, 0x01], [0xFF, 0x01], [], rfl, rfl, rfl, rfl, rfl, rfl, rfl, rfl, by decide⟩
/-- In its last poll iteration, not busy: with no bound, and with one. -/
theorem witness_AcceptedRequestsComplete :
    (∃ s : State, EngineInv s ∧ s.mode = .run ∧ TransportLive s ∧ s.pollLimit = none ∧ ChipEventuallyReady s) ∧
    ∃ s : State, EngineInv s ∧ s.mode = .run ∧ TransportLive s ∧ s.pollLimit ≠ none := by
  have inv : ∀ l, l ≠ some 0 → EngineInv { midway eraseChip 6 false [] with pollPhase := .pCsd, pollLimit := l } := fun l h =>
    { dst := rfl
      pollLimit := h
      run := fun _ => ⟨⟨eraseChip, rfl, rfl, rfl, rfl⟩, (by decide : 6 < 8), rfl, fun h => absurd rfl h,
        fun k hk => Nat.pos_of_ne_zero fun h0 => h (h0 ▸ hk)⟩
      idle := fun h => by cases h
      faulted := fun h => by cases h }
  refine ⟨⟨{ midway eraseChip 6 false [] with pollPhase := .pCsd, pollLimit := none }, inv _ (by decide), rfl,
    transportLive_of_live rfl (by decide), rfl, ?_⟩, ⟨{ midway eraseChip 6 false [] with pollPhase := .pCsd, pollLimit := some 1 },
    inv _ (by decide), rfl, transportLive_of_live rfl (by decide), by decide⟩⟩
  refine chipEventuallyReady_of_next rfl (chipEventuallyReady_of_next rfl (chipEventuallyReady_of_rest rfl rfl) ?_) ?_
  · intro h; cases h
  · exact fun _ => .now (.inr ⟨rfl, rfl, rfl⟩)
theorem witness_TableWordsRunNext : decodeTableWord 32 0x56341203 = some (.readData 0x123456) := by decide

end Sys2Proof.Tests
end

/-! ## The state: what a step can do, and what every step keeps

Acceptance as one operation, an inversion lemma for the step, and the five statements about the state. -/

namespace Sys2Proof.Machine
open Sys2Proof Sys2Proof.Claims

/-! ### Acceptance as one operation (R105) -/

/-- The fault acceptance in IDLE raises for the request, if any (R105, R62, R94, R96). -/
def acceptanceFault (r : Request) : Option FaultCode :=
  match decodeRequest r with
  | .reqRead f => if f.dstCap < readLength f then some .dstTooSmall else none
  | .reqPageProgram f => if f.src.length < programLength f then some .srcTooShort else none
  | .reqReserved5 _ | .reqReserved6 _ | .reqReserved7 _ => some .illegalOp
  | .reqIdentify _ | .reqSectorErase _ | .reqChipErase _ => none
  | .readId | .readData _ | .pageProgram _ | .sectorErase _ | .chipErase | .writeEnable | .readStatus1 => none

/-- The eight meanings of the request space are one acceptance step, told apart by fault, length and script (R105). -/
theorem exec_decodeRequest (r : Request) (s : State) :
    exec (decodeRequest r) s = present r (acceptanceFault r) (lengthOf r) (scriptOf r) s := by
  obtain ⟨f, op⟩ := r
  rcases op_cases op with rfl | rfl | rfl | rfl | rfl | rfl | rfl | rfl <;> rfl

theorem accepted_of_acceptanceFault {r : Request} (h : acceptanceFault r = none) : accepted r = true := by
  obtain ⟨f, op⟩ := r
  rcases op_cases op with rfl | rfl | rfl | rfl | rfl | rfl | rfl | rfl
  · rfl
  · have hlen : readLength f ≤ f.dstCap := by simpa [acceptanceFault, decodeRequest] using h
    simpa [accepted, decodeRequest, Instr.wellFormed, Instr.opLegal, Instr.dstSized, Instr.srcLongEnough,
      readLength] using hlen
  · have hlen : programLength f ≤ f.src.length := by simpa [acceptanceFault, decodeRequest] using h
    simpa [accepted, decodeRequest, Instr.wellFormed, Instr.opLegal, Instr.dstSized, Instr.srcLongEnough,
      programLength] using hlen
  · rfl
  · rfl
  · cases h
  · cases h
  · cases h

/-- Acceptance always answers a next state. -/
theorem present_next (r : Request) (c : Option FaultCode) (n : Nat) (us : List MicroOp) (s : State) :
    ∃ t, present r c n us s = .next t := by
  cases hm : s.mode with
  | faulted => exact ⟨s, present_faulted hm⟩
  | run => exact ⟨_, present_run hm⟩
  | idle =>
    cases c with
    | some c => exact ⟨_, present_idle_illegal hm⟩
    | none => exact ⟨_, present_idle_unchecked hm⟩

/-- A presented request is not taken (FAULTED), raises a fault, or is accepted and latched. -/
theorem exec_decodeRequest_cases {r : Request} {s t : State} (h : exec (decodeRequest r) s = .next t) :
    (s.mode = .faulted ∧ t = s) ∨ (s.mode ≠ .faulted ∧ ∃ c, t = raiseFault c r s) ∨
      (s.mode = .idle ∧ accepted r = true ∧ t = latch r (lengthOf r) (scriptOf r) s) := by
  rw [exec_decodeRequest] at h
  cases hm : s.mode with
  | faulted => rw [present_faulted hm] at h; cases h; exact .inl ⟨rfl, rfl⟩
  | run => rw [present_run hm] at h; cases h; exact .inr (.inl ⟨nofun, _, rfl⟩)
  | idle =>
    cases hc : acceptanceFault r with
    | some c => rw [hc, present_idle_illegal hm] at h; cases h; exact .inr (.inl ⟨nofun, c, rfl⟩)
    | none =>
      rw [hc, present_idle_unchecked hm] at h; cases h
      exact .inr (.inr ⟨rfl, accepted_of_acceptanceFault hc, rfl⟩)

/-! ### What a step can do -/

/-- A step enters a fault, latches an accepted request, applies the reset input, leaves the engine as it is, or runs the
micro-op at `ip`. -/
theorem step_effect {s t : State} (h : step s = .next t) :
    (∃ c r more, s.mode ≠ .faulted ∧ t = raiseFault c r { s with agenda := more }) ∨
    (∃ r more, s.mode = .idle ∧ accepted r = true ∧ t = latch r (lengthOf r) (scriptOf r) { s with agenda := more }) ∨
    (∃ more, s.agenda = .reset :: more ∧ t = resetInput { s with agenda := more }) ∨
    (∃ more tr, t = { s with agenda := more, transport := tr }) ∨
    (∃ more, s.mode = .run ∧ microStep { s with agenda := more } = .next t ∧ s.agenda.head? ≠ some .reset) := by
  rcases step_cases h with ⟨r, more, -, hx⟩ | ⟨more, ha, ht⟩ | ⟨more, tr, ht, -⟩ | ⟨more, hm, hx, hn⟩
  · rcases exec_decodeRequest_cases hx with ⟨-, ht⟩ | ⟨hm, c, ht⟩ | ⟨hm, hacc, ht⟩
    · exact .inr (.inr (.inr (.inl ⟨more, s.transport, ht⟩)))
    · exact .inl ⟨c, r, more, hm, ht⟩
    · exact .inr (.inl ⟨r, more, hm, hacc, ht⟩)
  · exact .inr (.inr (.inl ⟨more, ha, ht⟩))
  · exact .inr (.inr (.inr (.inl ⟨more, tr, ht⟩)))
  · refine .inr (.inr (.inr (.inr ⟨more, hm, hx, fun hr => ?_⟩)))
    obtain ⟨rest, ha⟩ := List.head?_eq_some_iff.1 hr
    exact hn rest ha

/-! ### The parts of the invariant, operation by operation -/

theorem atRest_clearRequest {s : State} (h : s.csN = true) : AtRest (clearRequest s) :=
  ⟨h, rfl, rfl, rfl, rfl, rfl, rfl, rfl, rfl⟩

theorem engineInv_of_atRest {s : State} (hd : Memory.wf s.dst = true) (hl : s.pollLimit ≠ some 0) (hm : s.mode = .idle)
    (h : AtRest s) : EngineInv s where
  dst := hd
  pollLimit := hl
  run hr := by simp [hm] at hr
  idle _ := h
  faulted hf := by simp [hm] at hf

theorem engineInv_of_inProgress {s : State} (hd : Memory.wf s.dst = true) (hl : s.pollLimit ≠ some 0)
    (hm : s.mode = .run) (h : InProgress s) : EngineInv s where
  dst := hd
  pollLimit := hl
  run _ := h
  idle hi := by simp [hm] at hi
  faulted hf := by simp [hm] at hf

/-- The invariant is about the engine: the coming moves and the transport are free. -/
theorem engineInv_outside {s : State} (h : EngineInv s) (more : List Turn) (tr : Transport) :
    EngineInv { s with agenda := more, transport := tr } where
  dst := h.dst
  pollLimit := h.pollLimit
  run hm := let p := h.run hm; ⟨p.request, p.inScript, p.level, p.pollAtRest, p.pollBelowLimit⟩
  idle hm := let p := h.idle hm; ⟨p.level, p.req, p.n, p.script, p.ip, p.idBuf, p.st, p.pollPhase, p.pollCount⟩
  faulted := h.faulted

theorem engineInv_raiseFault {s : State} (h : EngineInv s) (c : FaultCode) (r : Request) :
    EngineInv (raiseFault c r s) := by
  rw [raiseFault_fields]
  exact ⟨h.dst, h.pollLimit, nofun, nofun, fun _ => ⟨rfl, nofun⟩⟩

theorem engineInv_resetInput {s : State} (h : EngineInv s) : EngineInv (resetInput s) :=
  engineInv_of_atRest (by simpa [resetInput] using h.dst) (by simpa [resetInput] using h.pollLimit) rfl
    (atRest_clearRequest (by simp))

theorem engineInv_latch {s : State} (h : EngineInv s) (hm : s.mode = .idle) {r : Request} (ha : accepted r = true) :
    EngineInv (latch r (lengthOf r) (scriptOf r) s) := by
  have rest := h.idle hm
  have hcsa := scriptOf_head ha
  refine engineInv_of_inProgress h.dst h.pollLimit rfl ⟨⟨r, rfl, ha, rfl, rfl⟩, ?_, ?_, ?_, ?_⟩
  · exact (List.getElem?_eq_some_iff.1 hcsa).1
  · simp [levelAtIp, hcsa, rest.level]
  · exact fun _ => ⟨rest.pollPhase, rest.pollCount⟩
  · intro l hl
    have : l ≠ 0 := fun h0 => h.pollLimit (h0 ▸ hl)
    simp only [latch_pollCount, rest.pollCount]
    omega

/-! ### A micro-op keeps the request in progress -/

/-- The select level a micro-op of a script leaves behind (R75-R78, R86). -/
def levelAfter : MicroOp → Bool
  | .csd | .poll | .ret => true
  | .csa | .tx _ | .rxi _ | .rxd _ => false

/-- In a script's order (`follows`, a finite table), the level one micro-op leaves is the one the next expects. -/
theorem levelAtIp_of_follows {s : State} {u v : MicroOp} (hv : s.script[s.ip]? = some v) (hf : follows u v = true)
    (hp : s.pollPhase = .pCsa) : levelAtIp s = levelAfter u := by
  cases u <;> cases v <;> simp [follows] at hf <;> simp [levelAtIp, levelAfter, hv, hp]

/-- The script, the length and the bound stay those of the request in progress. -/
def KeepsRequest (s t : State) : Prop :=
  t.req = s.req ∧ t.n = s.n ∧ t.script = s.script ∧ t.pollLimit = s.pollLimit

/-- Going on to the next index keeps the request in progress. -/
theorem inProgress_next {s t : State} (h : InProgress s) {u : MicroOp} (hu : s.script[s.ip]? = some u) (hne : u ≠ .ret)
    (hk : KeepsRequest s t) (hip : t.ip = s.ip + 1) (hcs : t.csN = levelAfter u) (hp : t.pollPhase = .pCsa)
    (hc : t.pollCount = 0) : InProgress t := by
  obtain ⟨r, hr, ha, hn, hs⟩ := h.request
  obtain ⟨kreq, kn, kscript, klimit⟩ := hk
  have hts : t.script = scriptOf r := kscript.trans hs
  obtain ⟨v, hv, hf⟩ := scriptOf_next ha (hs ▸ hu) hne
  have hv' : t.script[t.ip]? = some v := by rw [hts, hip, hv]
  refine ⟨⟨r, kreq.trans hr, ha, kn.trans hn, hts⟩, (List.getElem?_eq_some_iff.1 hv').1, ?_, fun _ => ⟨hp, hc⟩, ?_⟩
  · rw [hcs, levelAtIp_of_follows hv' hf hp]
  · intro l hl
    have := h.pollBelowLimit l (klimit ▸ hl)
    omega

/-- Staying at POLL, in whatever phase, keeps the request in progress. -/
theorem inProgress_stay {s t : State} (h : InProgress s) (hu : s.script[s.ip]? = some .poll) (hk : KeepsRequest s t)
    (hip : t.ip = s.ip) (hcs : t.csN = decide (t.pollPhase = .pCsa)) (hc : ∀ l, s.pollLimit = some l → t.pollCount < l) :
    InProgress t := by
  obtain ⟨r, hr, ha, hn, hs⟩ := h.request
  obtain ⟨kreq, kn, kscript, klimit⟩ := hk
  have hu' : t.script[t.ip]? = some .poll := by rw [kscript, hip, hu]
  exact
    { request := ⟨r, kreq.trans hr, ha, kn.trans hn, kscript.trans hs⟩
      inScript := (List.getElem?_eq_some_iff.1 hu').1
      level := by rw [hcs, levelAtIp, hu', beq_eq_decide]
      pollAtRest := fun hne => absurd hu' hne
      pollBelowLimit := fun l hl => hc l (klimit ▸ hl) }

theorem play1_poll_fields (u : MicroOp) (s : State) : (play1 u s).pollPhase = s.pollPhase ∧
    (play1 u s).pollCount = s.pollCount ∧ (play1 u s).pollLimit = s.pollLimit := by
  cases u <;> simp [play1]

theorem play1_csN {u : MicroOp} {d : Nat} {s : State} (hp : plain d u = true) (hu : s.script[s.ip]? = some u)
    (hl : s.csN = levelAtIp s) : (play1 u s).csN = levelAfter u := by
  cases u <;> simp [plain, levelAtIp, hu] at hp hl <;> simp [play1, levelAfter, hl]

/-- A micro-op of a bracket, its exchange completed, keeps the request in progress. -/
theorem inProgress_play1 {s : State} (h : InProgress s) (hm : s.mode = .run) {u : MicroOp} {d : Nat}
    (hu : s.script[s.ip]? = some u) (hp : plain d u = true) : (play1 u s).mode = .run ∧ InProgress (play1 u s) := by
  obtain ⟨kmode, kscript, kreq, kn, -, -, kip⟩ := play1_keeps hp s
  obtain ⟨kphase, kcount, klimit⟩ := play1_poll_fields u s
  have hne : u ≠ .ret ∧ u ≠ .poll := by constructor <;> rintro rfl <;> cases hp
  obtain ⟨hphase, hcount⟩ := h.pollAtRest (by simpa [hu] using hne.2)
  exact ⟨kmode.trans hm, inProgress_next h hu hne.1 ⟨kreq, kn, kscript, klimit⟩ kip (play1_csN hp hu h.level)
    (kphase.trans hphase) (kcount.trans hcount)⟩

/-- The end of a poll iteration, with the bound as the spec says it (R86, R89). -/
theorem pollDecide_eq (s : State) : pollDecide s =
    if busy s.st = false then { driveCs true s with pollCount := 0, pollPhase := .pCsa, ip := s.ip + 1 }
    else if s.pollLimit = some (s.pollCount + 1) then complete .notResponding none (driveCs true s)
    else { driveCs true s with pollCount := s.pollCount + 1, pollPhase := .pCsa } := by
  unfold pollDecide
  simp only [limitReached_iff]
  split_ifs <;> simp [complete, clearRequest, emit]

/-- The end of a poll iteration leaves POLL, ends the request at the bound, or starts the next iteration. -/
theorem inProgress_pollDecide {s : State} (h : InProgress s) (hm : s.mode = .run) (hu : s.script[s.ip]? = some .poll) :
    ((pollDecide s).mode = .run ∧ InProgress (pollDecide s)) ∨ ((pollDecide s).mode = .idle ∧ AtRest (pollDecide s)) := by
  rw [pollDecide_eq]
  split_ifs with hready hbound
  · exact .inl ⟨by simpa using hm,
      inProgress_next h hu nofun (by simp [KeepsRequest]) rfl (by simp [levelAfter]) rfl rfl⟩
  · exact .inr ⟨rfl, atRest_clearRequest (by simp)⟩
  · refine .inl ⟨by simpa using hm, inProgress_stay h hu (by simp [KeepsRequest]) (by simp) (by simp) fun l hl => ?_⟩
    have hlt := h.pollBelowLimit l hl
    have hne : l ≠ s.pollCount + 1 := fun he => hbound (he ▸ hl)
    show s.pollCount + 1 < l
    omega

/-- Where a micro-op leaves a request in progress: still in progress, or ended and the engine at rest. -/
theorem microStep_inProgress {s t : State} (hm : s.mode = .run) (h : InProgress s) (hx : microStep s = .next t) :
    (t.mode = .run ∧ InProgress t) ∨ (t.mode = .idle ∧ AtRest t) := by
  have level := h.level
  rcases microStep_cases hx with ⟨hu, rfl⟩ | ⟨hu, rfl⟩ | ⟨b, hu, rfl⟩ | ⟨k, hu, rfl⟩ | ⟨i, hu, hi, rfl⟩ | ⟨hu, hp, rfl⟩ |
    ⟨hu, hp, rfl⟩ | ⟨hu, hp, rfl⟩ | ⟨hu, -, rfl⟩ | ⟨hu, rfl⟩ | ⟨rfl, -⟩
  · exact .inl (inProgress_play1 h (d := 0) hm hu rfl)
  · exact .inl (inProgress_play1 h (d := 0) hm hu rfl)
  · exact .inl (inProgress_play1 h (d := 0) hm hu rfl)
  · exact .inl (inProgress_play1 h (d := 0) hm hu rfl)
  · exact .inl (inProgress_play1 h hm hu (decide_eq_true hi))
  · exact .inl ⟨by simpa using hm, inProgress_stay h hu (by simp [KeepsRequest]) (by simp) (by simp)
      (by simpa using h.pollBelowLimit)⟩
  · exact .inl ⟨hm, inProgress_stay h hu (by simp [KeepsRequest]) rfl
      (by simpa [levelAtIp, hu, hp, beq_eq_decide] using level) h.pollBelowLimit⟩
  · exact .inl ⟨hm, inProgress_stay h hu (by simp [KeepsRequest]) rfl
      (by simpa [levelAtIp, hu, hp, beq_eq_decide] using level) h.pollBelowLimit⟩
  · exact inProgress_pollDecide h hm hu
  · exact .inr ⟨rfl, atRest_clearRequest (by simpa [levelAtIp, hu] using level)⟩
  · exact .inl ⟨hm, h⟩

/-! ### What a micro-op leaves unchanged -/

/-- No micro-op writes the fault record, and it writes the host's memory by `memWrite` alone. -/
theorem microStep_frame {s t : State} (hx : microStep s = .next t) :
    t.fault = s.fault ∧ (t.dst = s.dst ∨ ∃ a v, t.dst = memWrite s.dst a v) := by
  rcases microStep_cases hx with ⟨-, rfl⟩ | ⟨-, rfl⟩ | ⟨b, -, rfl⟩ | ⟨k, -, rfl⟩ | ⟨i, -, -, rfl⟩ | ⟨-, -, rfl⟩ |
    ⟨-, -, rfl⟩ | ⟨-, -, rfl⟩ | ⟨-, -, rfl⟩ | ⟨-, rfl⟩ | ⟨rfl, -⟩
  · simp
  · simp
  · simp
  · simp
  · exact ⟨rfl, .inr ⟨_, _, rfl⟩⟩
  · simp
  · simp
  · simp
  · rw [pollDecide_eq]; split_ifs <;> simp [complete]
  · simp [complete]
  · simp

theorem microStep_keeps_wf {s t : State} (hx : microStep s = .next t) (hw : Memory.wf s.dst = true) :
    Memory.wf t.dst = true := by
  rcases (microStep_frame hx).2 with hd | ⟨a, v, hd⟩ <;> rw [hd]
  · exact hw
  · exact wf_memWrite hw a v

theorem engineInv_microStep {s t : State} (h : EngineInv s) (hm : s.mode = .run) (hx : microStep s = .next t) :
    EngineInv t := by
  have hdst := microStep_keeps_wf hx h.dst
  have hlimit : t.pollLimit ≠ some 0 := (micro_class hx).1 ▸ h.pollLimit
  rcases microStep_inProgress hm (h.run hm) hx with ⟨hrun, hin⟩ | ⟨hidle, hrest⟩
  · exact engineInv_of_inProgress hdst hlimit hrun hin
  · exact engineInv_of_atRest hdst hlimit hidle hrest

/-- Settles O43: each of the five effects a step can have keeps the invariant; for a micro-op, because the script's order
puts the next micro-op where the select level already is. -/
theorem everyStepKeepsTheInvariant : Obligations.EveryStepKeepsTheInvariant := by
  intro s t h hs
  have hout := fun more => engineInv_outside h more s.transport
  rcases step_effect hs with ⟨c, r, more, -, rfl⟩ | ⟨r, more, hm, ha, rfl⟩ | ⟨more, -, rfl⟩ | ⟨more, tr, rfl⟩ |
    ⟨more, hm, hx, -⟩
  · exact engineInv_raiseFault (hout more) c r
  · exact engineInv_latch (hout more) hm ha
  · exact engineInv_resetInput (hout more)
  · exact engineInv_outside h more tr
  · exact engineInv_microStep (hout more) hm hx

/-! ### The fault record -/

/-- A step that changes the fault record is a fault entry. -/
theorem step_fault {s t : State} (hs : step s = .next t) :
    t.fault = s.fault ∨ ∃ c r more, t = raiseFault c r { s with agenda := more } := by
  rcases step_effect hs with ⟨c, r, more, -, ht⟩ | ⟨r, more, -, -, rfl⟩ | ⟨more, -, rfl⟩ | ⟨more, tr, rfl⟩ | ⟨more, -, hx, -⟩
  · exact .inr ⟨c, r, more, ht⟩
  · exact .inl rfl
  · exact .inl (by simp [resetInput])
  · exact .inl rfl
  · exact .inl (microStep_frame (s := { s with agenda := more }) hx).1

/-- Settles O36: only fault entry writes the record, and it writes a code. -/
theorem faultRecordIsSticky : Obligations.FaultRecordIsSticky := by
  intro s t hs
  rcases step_fault hs with hsame | ⟨c, r, more, rfl⟩
  · exact ⟨fun hne => hsame ▸ hne, fun hne => absurd hsame hne⟩
  · rw [raiseFault_fields]
    exact ⟨nofun, fun _ => ⟨c, rfl⟩⟩

/-! ### No step stops -/

theorem exchange_next {f : State → Answer} {s : State} (hf : ∃ t, f s = .next t) : ∃ t, exchange f s = .next t := by
  cases htr : s.transport with
  | live => simpa [exchange, htr] using hf
  | stalled => exact ⟨s, by simp [exchange, htr]⟩

/-- Inside the script of an accepted request every micro-op answers a next state (R19, R37). -/
theorem microStep_next_of_inProgress {s : State} (h : InProgress s) : ∃ t, microStep s = .next t := by
  obtain ⟨r, hr, ha, -, hs⟩ := h.request
  obtain ⟨u, hu⟩ : ∃ u, s.script[s.ip]? = some u := ⟨_, List.getElem?_eq_getElem h.inScript⟩
  unfold microStep
  rw [hu]
  cases u with
  | csa | csd | ret => exact ⟨_, rfl⟩
  | tx b => exact exchange_next ⟨_, rfl⟩
  | rxi k => exact exchange_next ⟨_, rfl⟩
  | rxd i =>
    have hi : i < dstCap s := by
      rw [dstCap, hr]; exact scriptOf_rxd ha (hs ▸ hu)
    simp only [microRxd, if_pos hi]
    exact exchange_next ⟨_, rfl⟩
  | poll =>
    unfold microPoll
    cases s.pollPhase with
    | pCsa | pCsd => exact ⟨_, rfl⟩
    | pTx | pRx => exact exchange_next ⟨_, rfl⟩

theorem engineTurn_next_of_engineInv {s : State} (h : EngineInv s) : ∃ t, engineTurn s = .next t := by
  by_cases hm : s.mode = .run
  · rw [engineTurn_run hm]; exact microStep_next_of_inProgress (h.run hm)
  · exact ⟨s, engineTurn_not_run hm⟩

theorem hostRequest_next (r : Request) (s : State) : ∃ t, hostRequest r s = .next t := by
  rw [hostRequest, exec_decodeRequest]; exact present_next ..

/-- Settles O44, move by move: acceptance always answers, and the engine is inside its script. -/
theorem noStepStopsUnderTheInvariant : Obligations.NoStepStopsUnderTheInvariant := by
  intro s h
  unfold step takeTurn
  rcases s.agenda with _ | ⟨move, more⟩
  · exact engineTurn_next_of_engineInv h
  · cases move with
    | engine => exact engineTurn_next_of_engineInv (engineInv_outside h more s.transport)
    | request r => exact hostRequest_next ..
    | await r =>
      dsimp only
      split_ifs
      · exact hostRequest_next ..
      · exact engineTurn_next_of_engineInv h
    | reset | stall | resume => exact ⟨_, rfl⟩

/-! ### Completion responses -/

/-- The completion responses of the trace, in order. -/
def dones (s : State) : List Event := s.trace.filter isDone

theorem mem_dones {s : State} {r : Result} {id : Option Ident} : .done r id ∈ dones s ↔ .done r id ∈ s.trace := by
  simp [dones, isDone]

theorem dones_driveCs (l : Bool) (s : State) : dones (driveCs l s) = dones s := by
  simp only [dones, driveCs_trace]
  cases l <;> split_ifs <;> simp [isDone]

theorem dones_raiseFault (c : FaultCode) (r : Request) (s : State) : dones (raiseFault c r s) = dones s := by
  rw [raiseFault_fields]
  simp only [dones]
  split_ifs <;> simp [isDone]

theorem dones_resetInput (s : State) : dones (resetInput s) = dones s := by
  have := dones_driveCs true s
  simpa [dones, resetInput, isDone] using this

theorem dones_complete (r : Result) (id : Option Ident) (s : State) :
    dones (complete r id s) = dones s ++ [.done r id] := by
  simp [dones, complete, isDone]

/-- The end of the request in progress: one DONE, with a result other than OK only under a finite `POLL_LIMIT` (R104). -/
def EndsWithDone (s t : State) : Prop :=
  t.mode = .idle ∧ ∃ res id, dones t = dones s ++ [.done res id] ∧ (res = .ok ∨ s.pollLimit ≠ none)

theorem pollDecide_dones (s : State) :
    (dones (pollDecide s) = dones s ∧ (pollDecide s).mode = s.mode) ∨ EndsWithDone s (pollDecide s) := by
  rw [pollDecide_eq]
  split_ifs with hready hbound
  · exact .inl ⟨dones_driveCs true s, by simp⟩
  · refine .inr ⟨rfl, .notResponding, none, ?_, .inr (by simp [hbound])⟩
    rw [dones_complete, dones_driveCs]
  · exact .inl ⟨dones_driveCs true s, by simp⟩

/-- A micro-op answers no DONE and stays in its mode, or ends the request with one. -/
theorem microStep_dones {s t : State} (hx : microStep s = .next t) :
    (dones t = dones s ∧ t.mode = s.mode) ∨ EndsWithDone s t := by
  rcases microStep_cases hx with ⟨-, rfl⟩ | ⟨-, rfl⟩ | ⟨b, -, rfl⟩ | ⟨k, -, rfl⟩ | ⟨i, -, -, rfl⟩ | ⟨-, -, rfl⟩ |
    ⟨-, -, rfl⟩ | ⟨-, -, rfl⟩ | ⟨-, -, rfl⟩ | ⟨-, rfl⟩ | ⟨rfl, -⟩
  · exact .inl ⟨dones_driveCs false s, by simp⟩
  · exact .inl ⟨dones_driveCs true s, by simp⟩
  · exact .inl ⟨by simp [dones, isDone], rfl⟩
  · exact .inl ⟨by simp [dones, isDone], rfl⟩
  · exact .inl ⟨by simp [dones, isDone], rfl⟩
  · exact .inl ⟨dones_driveCs false s, by simp⟩
  · exact .inl ⟨by simp [dones, isDone], rfl⟩
  · exact .inl ⟨by simp [dones, isDone], rfl⟩
  · exact pollDecide_dones s
  · exact .inr ⟨rfl, .ok, _, dones_complete .., .inl rfl⟩
  · exact .inl ⟨rfl, rfl⟩

/-- The step takes the engine from RUN to IDLE and is no reset. -/
def CompletesRequest (s t : State) : Prop :=
  s.mode = .run ∧ t.mode = .idle ∧ s.agenda.head? ≠ some .reset

/-- A step answers no DONE, or it completes the request and answers one. -/
theorem step_dones {s t : State} (hs : step s = .next t) :
    (dones t = dones s ∧ ¬ CompletesRequest s t) ∨ (CompletesRequest s t ∧ EndsWithDone s t) := by
  rcases step_effect hs with ⟨c, r, more, -, rfl⟩ | ⟨r, more, hm, -, rfl⟩ | ⟨more, ha, rfl⟩ | ⟨more, tr, rfl⟩ |
    ⟨more, hm, hx, hn⟩
  · exact .inl ⟨dones_raiseFault .., fun ⟨_, hidle, _⟩ => nomatch hidle⟩
  · exact .inl ⟨rfl, fun ⟨_, hidle, _⟩ => nomatch hidle⟩
  · exact .inl ⟨dones_resetInput _, fun ⟨_, _, hn⟩ => hn (by simp [ha])⟩
  · exact .inl ⟨rfl, fun ⟨hrun, hidle, _⟩ => nomatch hrun.symm.trans hidle⟩
  · rcases microStep_dones hx with ⟨hd, hmode⟩ | hend
    · exact .inl ⟨hd, fun ⟨hrun, hidle, _⟩ => nomatch (hmode.trans hrun).symm.trans hidle⟩
    · exact .inr ⟨⟨hm, hend.1, hn⟩, hend⟩

/-- Settles O48: a DONE is answered by the end of a request alone, and is NOT_RESPONDING only at the poll bound. -/
theorem oneDonePerCompletedRequest : Obligations.OneDonePerCompletedRequest := by
  intro s t hs
  rcases step_dones hs with ⟨hd, hno⟩ | ⟨hcompletes, -, res, id, hd, hres⟩
  · refine ⟨?_, fun _ hmem => ?_⟩
    · unfold CompletesRequest at hno
      rw [if_neg hno]; exact congrArg List.length hd
    · rwa [← mem_dones, hd, mem_dones] at hmem
  · refine ⟨?_, fun hlimit hmem => ?_⟩
    · unfold CompletesRequest at hcompletes
      rw [if_pos hcompletes]; simpa [dones] using congrArg List.length hd
    · obtain rfl : res = .ok := hres.resolve_right (not_not_intro hlimit)
      rw [← mem_dones, hd] at hmem
      simpa [mem_dones] using hmem

/-! ### Where the model stops -/

/-- A wire row steps inside its own frame, which has a micro-op. -/
theorem exec_wire {i : Instr} (hi : commandBytes i ≠ []) (s : State) :
    exec i s = stepFrame (frameOf i s) s ∧ frameOf i s ≠ [] := by
  cases i with
  | readId | readData | pageProgram | sectorErase | chipErase | writeEnable | readStatus1 => exact ⟨rfl, nofun⟩
  | reqIdentify | reqRead | reqPageProgram | reqSectorErase | reqChipErase | reqReserved5 | reqReserved6
    | reqReserved7 => exact absurd rfl hi

theorem microStep_rxd_outside {s : State} {k : Nat} (hu : s.script[s.ip]? = some (.rxd k)) (hk : dstCap s ≤ k) :
    microStep s = .fault (.outsideDestination k) := by
  simp only [microStep, hu, microRxd, if_neg (Nat.not_lt.2 hk)]

theorem microStep_outside_script {s : State} (h : s.script.length ≤ s.ip) : microStep s = .fault .ipOutsideScript := by
  simp only [microStep, List.getElem?_eq_none h]

/-- Settles O21, a stop at a time. -/
theorem stopsAreNamed : Obligations.StopsAreNamed := by
  refine ⟨fun i s hi hno => ?_, fun s k => microStep_rxd_outside, fun s => microStep_outside_script⟩
  obtain ⟨he, hne⟩ := exec_wire hi s
  rw [he]
  exact if_neg fun ⟨hm, hb⟩ => hno ⟨hm, hb, hne⟩

end Sys2Proof.Machine

/-! ## The trace and the destination memory, step by step

What a step appends to the trace (R45), and the one micro-op that changes a destination byte (R37). -/

namespace Sys2Proof.Machine
open Sys2Proof Sys2Proof.Claims

/-! ### How far a trace grows -/

/-- The new trace is the old one with at most `all` events appended, at most `bus` of them bus events. -/
def GrowsBy (bus all : Nat) (old new : List Event) : Prop :=
  ∃ es, new = old ++ es ∧ (es.filter isBus).length ≤ bus ∧ es.length ≤ all

theorem growsBy_refl (bus all : Nat) (old : List Event) : GrowsBy bus all old old :=
  ⟨[], by simp⟩

theorem growsBy_event (e : Event) (old : List Event) : GrowsBy 1 1 old (old ++ [e]) :=
  ⟨[e], rfl, List.length_filter_le .., le_rfl⟩

/-- An event that is not on the bus leaves the count of bus events as it is. -/
theorem GrowsBy.snoc {bus all : Nat} {old new : List Event} {e : Event} (h : GrowsBy bus all old new)
    (he : isBus e = false) : GrowsBy bus (all + 1) old (new ++ [e]) := by
  obtain ⟨es, rfl, hbus, hall⟩ := h
  exact ⟨es ++ [e], by simp, by simpa [he] using hbus, by simpa using hall⟩

theorem GrowsBy.mono {bus all all' : Nat} {old new : List Event} (h : GrowsBy bus all old new) (hle : all ≤ all') :
    GrowsBy bus all' old new := by
  obtain ⟨es, hnew, hbus, hall⟩ := h
  exact ⟨es, hnew, hbus, hall.trans hle⟩

/-- The select line is one bus event, or none when it keeps its level (R15). -/
theorem driveCs_growsBy (l : Bool) (s : State) : GrowsBy 1 1 s.trace (driveCs l s).trace := by
  rw [driveCs_trace]
  by_cases hkeeps : s.csN = l
  · simpa [hkeeps] using growsBy_refl 1 1 s.trace
  · rw [if_neg hkeeps]
    exact growsBy_event ..

theorem raiseFault_growsBy (c : FaultCode) (r : Request) (s : State) : GrowsBy 1 2 s.trace (raiseFault c r s).trace :=
  (driveCs_growsBy true s).snoc (e := .fault c) rfl

theorem resetInput_growsBy (s : State) : GrowsBy 1 2 s.trace (resetInput s).trace :=
  (driveCs_growsBy true s).snoc (e := .reset) rfl

theorem complete_growsBy {bus all : Nat} {old : List Event} {s : State} (h : GrowsBy bus all old s.trace) (res : Result)
    (id : Option Ident) : GrowsBy bus (all + 1) old (complete res id s).trace :=
  h.snoc (e := .done res id) rfl

theorem pollDecide_growsBy (s : State) : GrowsBy 1 2 s.trace (pollDecide s).trace := by
  have hrelease := driveCs_growsBy true s
  rw [pollDecide_eq]
  split_ifs
  · exact hrelease.mono (by decide)
  · exact complete_growsBy hrelease ..
  · exact hrelease.mono (by decide)

/-- A micro-op moves the select line or one byte; after that, only RXD, RET and the poll bound add an event of their own. -/
theorem microStep_growsBy {s t : State} (hx : microStep s = .next t) : GrowsBy 1 2 s.trace t.trace := by
  have hevent (e : Event) : GrowsBy 1 2 s.trace (s.trace ++ [e]) := (growsBy_event e s.trace).mono (by decide)
  have hselect (l : Bool) : GrowsBy 1 2 s.trace (driveCs l s).trace := (driveCs_growsBy l s).mono (by decide)
  rcases microStep_cases hx with ⟨-, rfl⟩ | ⟨-, rfl⟩ | ⟨b, -, rfl⟩ | ⟨k, -, rfl⟩ | ⟨i, -, -, rfl⟩ | ⟨-, -, rfl⟩ |
    ⟨-, -, rfl⟩ | ⟨-, -, rfl⟩ | ⟨-, -, rfl⟩ | ⟨-, rfl⟩ | ⟨rfl, -⟩
  · exact hselect false
  · exact hselect true
  · exact hevent _
  · exact hevent _
  · exact (growsBy_event (.rx (chipByte s)) s.trace).snoc (e := .dw i (chipByte s)) rfl
  · exact hselect false
  · exact hevent _
  · exact hevent _
  · exact pollDecide_growsBy s
  · exact complete_growsBy (growsBy_refl 1 1 s.trace) ..
  · exact growsBy_refl ..

/-- Settles O46, effect by effect: at most one move of the select line or one byte on the bus, and then at most one event
off it. -/
theorem atMostOneBusEventPerStep : Obligations.AtMostOneBusEventPerStep := by
  intro s t hs
  change GrowsBy 1 2 s.trace t.trace
  rcases step_effect hs with ⟨c, r, more, -, rfl⟩ | ⟨r, more, -, -, rfl⟩ | ⟨more, -, rfl⟩ | ⟨more, tr, rfl⟩ |
    ⟨more, -, hx, -⟩
  · exact raiseFault_growsBy c r { s with agenda := more }
  · exact growsBy_refl ..
  · exact resetInput_growsBy { s with agenda := more }
  · exact growsBy_refl ..
  · exact microStep_growsBy (s := { s with agenda := more }) hx

/-! ### Which step writes a destination byte -/

/-- An offset inside the buffer has a request in progress, which owns the buffer (R36, R37). -/
theorem request_of_lt_dstCap {s : State} {i : Nat} (hi : i < dstCap s) :
    ∃ r, s.req = some r ∧ i < r.dstCap ∧ dstAddr s i = r.dstBase + i := by
  cases hr : s.req with
  | none => simp [dstCap, hr] at hi
  | some r => exact ⟨r, rfl, by simpa [dstCap, hr] using hi, by simp [dstAddr, hr]⟩

/-- A step leaves the destination memory as it is, or it is a micro-op. -/
theorem step_dst {s t : State} (hs : step s = .next t) :
    t.dst = s.dst ∨ ∃ more, s.mode = .run ∧ microStep { s with agenda := more } = .next t := by
  rcases step_effect hs with ⟨c, r, more, -, rfl⟩ | ⟨r, more, -, -, rfl⟩ | ⟨more, -, rfl⟩ | ⟨more, tr, rfl⟩ |
    ⟨more, hm, hx, -⟩
  · exact .inl (by rw [raiseFault_fields])
  · exact .inl rfl
  · exact .inl (by simp [resetInput])
  · exact .inl rfl
  · exact .inr ⟨more, hm, hx⟩

/-- A micro-op leaves the destination memory as it is, or it is an RXD inside the buffer (R78). -/
theorem microStep_dst {s t : State} (hx : microStep s = .next t) :
    t.dst = s.dst ∨ ∃ i, s.script[s.ip]? = some (.rxd i) ∧ i < dstCap s ∧
      t = advance (writeDst i (chipByte s) (receive s)) := by
  rcases microStep_cases hx with ⟨-, rfl⟩ | ⟨-, rfl⟩ | ⟨b, -, rfl⟩ | ⟨k, -, rfl⟩ | ⟨i, hu, hi, rfl⟩ | ⟨-, -, rfl⟩ |
    ⟨-, -, rfl⟩ | ⟨-, -, rfl⟩ | ⟨-, -, rfl⟩ | ⟨-, rfl⟩ | ⟨rfl, -⟩
  · exact .inl (by simp)
  · exact .inl (by simp)
  · exact .inl rfl
  · exact .inl rfl
  · exact .inr ⟨i, hu, hi, rfl⟩
  · exact .inl (by simp)
  · exact .inl rfl
  · exact .inl rfl
  · exact .inl (by rw [pollDecide_eq]; split_ifs <;> simp [complete])
  · exact .inl rfl
  · exact .inl rfl

/-- A micro-op that changes how an address reads is the RXD whose offset lies there, with the byte it received. -/
theorem microStep_memRead {s t : State} {a : Nat} (hx : microStep s = .next t) (hne : memRead t.dst a ≠ memRead s.dst a) :
    ∃ i, s.script[s.ip]? = some (.rxd i) ∧ i < dstCap s ∧ a = dstAddr s i ∧ memRead t.dst a = some (chipByte s) ∧
      t.trace = s.trace ++ [.rx (chipByte s), .dw i (chipByte s)] := by
  rcases microStep_dst hx with hsame | ⟨i, hu, hi, rfl⟩
  · exact absurd (by rw [hsame]) hne
  · have hread := memRead_memWrite s.dst (dstAddr s i) (chipByte s) a
    have ha : a = dstAddr s i := by
      by_contra hother
      exact hne (by simpa [hother] using hread)
    exact ⟨i, hu, hi, ha, by simpa [ha] using hread, by simp⟩

/-- Settles O47: only a micro-op writes the memory, of these only RXD, and a write changes the one address it is made at. -/
theorem destinationChangesOnlyByRxd : Obligations.DestinationChangesOnlyByRxd := by
  intro s t a hs hne
  rcases step_dst hs with hsame | ⟨more, hm, hx⟩
  · exact absurd (by rw [hsame]) hne
  · obtain ⟨i, hu, hi, ha, hread, htrace⟩ := microStep_memRead (s := { s with agenda := more }) hx hne
    obtain ⟨r, hr, hcap, haddr⟩ := request_of_lt_dstCap hi
    exact ⟨r, i, _, hm, hu, hr, hcap, ha.trans haddr, hread, htrace⟩

end Sys2Proof.Machine

/-! ## The encodings, and the words that carry them

Decoding is the inverse of encoding (R55-R62): for a frame with its data phase after it, for a request, and for a whole
bracket. What acceptance does with a request's fields (R62, R63), and a table word placed and run (R59, R61). -/

namespace Sys2Proof
open Sys2Proof.Machine Sys2Proof.Claims

/-! ### A frame's command part -/

/-- A command part decodes to its instruction, and what the data phase transmits after it is left over. -/
theorem decodeFrame_append {i : Instr} {bytes : List Byte} (h : encode i = .wire bytes) (data : List Byte) :
    decodeFrame (bytes ++ data) = .ok (i, data) := by
  cases i with
  | readId | chipErase | writeEnable | readStatus1 => cases h; rfl
  | readData a => cases h; exact decodeAddress_addrBytes .readData opReadData a data
  | pageProgram a => cases h; exact decodeAddress_addrBytes .pageProgram opPageProgram a data
  | sectorErase a => cases h; exact decodeAddress_addrBytes .sectorErase opSectorErase a data
  | reqIdentify | reqRead | reqPageProgram | reqSectorErase | reqChipErase | reqReserved5 | reqReserved6
    | reqReserved7 => cases h

/-- Bytes that decode to an instruction begin with its command part. -/
theorem encode_of_decodeFrame {bytes rest : List Byte} {i : Instr} (h : decodeFrame bytes = .ok (i, rest)) :
    ∃ command, encode i = .wire command ∧ bytes = command ++ rest := by
  cases bytes with
  | nil => cases h
  | cons b bs =>
    rw [decodeFrame] at h
    split_ifs at h with hb hb hb hb hb hb hb
    · subst hb; cases h; exact ⟨_, rfl, rfl⟩
    · subst hb; obtain ⟨a, rfl, rfl⟩ := decodeAddress_ok h; exact ⟨_, rfl, rfl⟩
    · subst hb; obtain ⟨a, rfl, rfl⟩ := decodeAddress_ok h; exact ⟨_, rfl, rfl⟩
    · subst hb; obtain ⟨a, rfl, rfl⟩ := decodeAddress_ok h; exact ⟨_, rfl, rfl⟩
    · subst hb; cases h; exact ⟨_, rfl, rfl⟩
    · subst hb; cases h; exact ⟨_, rfl, rfl⟩
    · subst hb; cases h; exact ⟨_, rfl, rfl⟩

/-! ### A request's code -/

theorem decodeRequest_of_encode {i : Instr} {r : Request} (h : encode i = .request r) : decodeRequest r = i := by
  cases i with
  | readId | readData | pageProgram | sectorErase | chipErase | writeEnable | readStatus1 => cases h
  | reqIdentify | reqRead | reqPageProgram | reqSectorErase | reqChipErase | reqReserved5 | reqReserved6
    | reqReserved7 => cases h; rfl

theorem encode_decodeRequest (r : Request) : encode (decodeRequest r) = .request r := by
  obtain ⟨f, op⟩ := r
  rcases op_cases op with rfl | rfl | rfl | rfl | rfl | rfl | rfl | rfl <;> rfl

/-- Settles O1, space by space. -/
theorem decodeOfEncodeIsTheInstruction : Obligations.DecodeOfEncodeIsTheInstruction := by
  intro i
  refine ⟨?_, fun bytes data hi => decodeFrame_append hi data⟩
  cases hi : encode i with
  | wire bytes => simpa [decode] using decodeFrame_append hi []
  | request r => rw [decode, decodeRequest_of_encode hi]

/-- Settles O2, space by space. -/
theorem decodedBytesAreTheEncoding : Obligations.DecodedBytesAreTheEncoding :=
  ⟨fun _ _ _ => encode_of_decodeFrame, encode_decodeRequest⟩

/-! ### Which first bytes decode -/

/-- Three bytes are the framing of some address. -/
theorem exists_addrBytes_of_length {rest : List Byte} (h : 3 ≤ rest.length) : ∃ a more, rest = addrBytes a ++ more := by
  match rest, h with
  | a2 :: a1 :: a0 :: more, _ =>
    obtain ⟨a, -, ha⟩ := decodeAddress_ok (mk := .readData) (b := 0) (bs := a2 :: a1 :: a0 :: more) rfl
    exact ⟨a, more, ha⟩

/-- The opcodes of the table, F-OP and F-OPA (R59). -/
theorem decodeFrame_isOk_iff (b : Byte) (rest : List Byte) : (∃ r, decodeFrame (b :: rest) = .ok r) ↔
    b ∈ [0x9F, 0xC7, 0x06, 0x05] ∨ (b ∈ [0x03, 0x02, 0x20] ∧ 3 ≤ rest.length) := by
  constructor
  · rintro ⟨⟨i, more⟩, h⟩
    obtain ⟨command, hi, hbytes⟩ := encode_of_decodeFrame h
    cases i with
    | readId | chipErase | writeEnable | readStatus1 =>
      cases hi; cases hbytes; exact .inl (by decide)
    | readData a | pageProgram a | sectorErase a =>
      cases hi; cases hbytes; exact .inr ⟨by decide, by simp [addrBytes]⟩
    | reqIdentify | reqRead | reqPageProgram | reqSectorErase | reqChipErase | reqReserved5 | reqReserved6
      | reqReserved7 => cases hi
  · rintro (hb | ⟨hb, hlen⟩)
    · simp only [List.mem_cons, List.not_mem_nil, or_false] at hb
      rcases hb with rfl | rfl | rfl | rfl
      · exact ⟨_, decodeFrame_append (i := .readId) rfl rest⟩
      · exact ⟨_, decodeFrame_append (i := .chipErase) rfl rest⟩
      · exact ⟨_, decodeFrame_append (i := .writeEnable) rfl rest⟩
      · exact ⟨_, decodeFrame_append (i := .readStatus1) rfl rest⟩
    · obtain ⟨a, more, rfl⟩ := exists_addrBytes_of_length hlen
      simp only [List.mem_cons, List.not_mem_nil, or_false] at hb
      rcases hb with rfl | rfl | rfl
      · exact ⟨_, decodeFrame_append (i := .readData a) rfl more⟩
      · exact ⟨_, decodeFrame_append (i := .pageProgram a) rfl more⟩
      · exact ⟨_, decodeFrame_append (i := .sectorErase a) rfl more⟩

theorem decodeFrame_unknown {b : Byte} (hb : b ∉ [0x9F, 0xC7, 0x06, 0x05, 0x03, 0x02, 0x20]) (rest : List Byte) :
    decodeFrame (b :: rest) = .error (.unknownOpcode b) := by
  simp only [List.mem_cons, List.not_mem_nil, or_false, not_or] at hb
  obtain ⟨hId, hChipErase, hWriteEnable, hStatus, hRead, hProgram, hErase⟩ : b ≠ opReadId ∧ b ≠ opChipErase ∧
    b ≠ opWriteEnable ∧ b ≠ opReadStatus1 ∧ b ≠ opReadData ∧ b ≠ opPageProgram ∧ b ≠ opSectorErase := hb
  rw [decodeFrame, if_neg hId, if_neg hRead, if_neg hProgram, if_neg hErase, if_neg hChipErase, if_neg hWriteEnable,
    if_neg hStatus]

/-- Settles O3: the empty frame, the opcodes of the table, every other first byte. -/
theorem onlySevenOpcodesDecode : Obligations.OnlySevenOpcodesDecode :=
  ⟨rfl, fun b rest => ⟨decodeFrame_isOk_iff b rest, fun hb => decodeFrame_unknown hb rest⟩⟩

/-! ### A whole bracket -/

theorem leadingTx_map_append (bs : List Byte) (es : List Event) : leadingTx (bs.map .tx ++ es) = bs ++ leadingTx es := by
  induction bs with
  | nil => rfl
  | cons b bs ih => simp [leadingTx, ih]

/-- Only a frame has a data phase (R58). -/
theorem encode_of_dataPhaseFits {i : Instr} {data : List Event} (h : dataPhaseFits i data = true) :
    encode i = .wire (commandBytes i) := by
  cases i with
  | readId | readData | pageProgram | sectorErase | chipErase | writeEnable | readStatus1 => rfl
  | reqIdentify | reqRead | reqPageProgram | reqSectorErase | reqChipErase | reqReserved5 | reqReserved6
    | reqReserved7 => cases h

/-- Settles O8: the transmitted bytes of the bracket begin with the command part, so they decode to the frame; what stands
between the command part and the release is the data phase. -/
theorem bracketsDecodeToTheirFrames : Obligations.BracketsDecodeToTheirFrames := by
  intro i data hfits
  have hframe := decodeFrame_append (encode_of_dataPhaseFits hfits) (leadingTx (data ++ [.desel]))
  have hdata : ((commandBytes i).map Event.tx ++ data ++ [Event.desel]).dropLast.drop (commandBytes i).length = data := by
    rw [List.dropLast_concat]
    exact List.drop_left' (List.length_map ..)
  rw [← leadingTx_map_append, ← List.append_assoc] at hframe
  simp only [List.cons_append, decodeBracket, hframe, hdata, hfits, List.getLast?_concat, if_true]

/-! ### Words of the tables -/

/-- Settles O4, word by word. -/
theorem wordsFromTheTablesDecode : Obligations.WordsFromTheTablesDecode := by
  unfold Obligations.WordsFromTheTablesDecode; decide

/-- Settles O5: each code is the encoding of its row. -/
theorem requestCodesOfTheTable : Obligations.RequestCodesOfTheTable := fun f =>
  ⟨decodeRequest_of_encode (i := .reqIdentify f) rfl, decodeRequest_of_encode (i := .reqRead f) rfl,
    decodeRequest_of_encode (i := .reqPageProgram f) rfl, decodeRequest_of_encode (i := .reqSectorErase f) rfl,
    decodeRequest_of_encode (i := .reqChipErase f) rfl, decodeRequest_of_encode (i := .reqReserved5 f) rfl,
    decodeRequest_of_encode (i := .reqReserved6 f) rfl, decodeRequest_of_encode (i := .reqReserved7 f) rfl⟩

/-- Settles O6: a byte of the address is a quotient of it, and the framer has an inverse. -/
theorem addressIsFramedMostSignificantFirst : Obligations.AddressIsFramedMostSignificantFirst := by
  intro a
  refine ⟨?_, joinBytes_addrBytes a⟩
  have hhigh : a.toNat / 65536 % 256 = a.toNat / 65536 := by have := a.isLt; omega
  simp [addrBytes, Nat.shiftRight_eq_div_pow, hhigh]

end Sys2Proof

namespace Sys2Proof.Machine
open Sys2Proof Sys2Proof.Claims

/-! ### Acceptance and the fields it reads (R62, R63) -/

/-- A request row is the acceptance step of its request. -/
theorem exec_of_encode {i : Instr} {r : Request} (h : encode i = .request r) (s : State) :
    exec i s = present r (acceptanceFault r) (lengthOf r) (scriptOf r) s := by
  rw [← decodeRequest_of_encode h, exec_decodeRequest]

/-- The two requests are told apart by nothing acceptance reads. -/
def AcceptedAlike (q r : Request) : Prop :=
  acceptanceFault q = acceptanceFault r ∧ lengthOf q = lengthOf r ∧ scriptOf q = scriptOf r

/-- Acceptance keeps the request as a whole, and reads of it only its fault, its length and its script. -/
theorem exec_acceptedAlike {i j : Instr} {q r : Request} (hi : encode i = .request q) (hj : encode j = .request r)
    (h : AcceptedAlike q r) (s : State) :
    ∃ t u, exec i s = .next t ∧ exec j s = .next u ∧ u = { t with req := u.req, faultReq := u.faultReq } := by
  obtain ⟨hfault, hlength, hscript⟩ := h
  rw [exec_of_encode hi, exec_of_encode hj, hfault, hlength, hscript]
  cases hm : s.mode with
  | faulted => exact ⟨s, s, present_faulted hm, present_faulted hm, rfl⟩
  | run => exact ⟨_, _, present_run hm, present_run hm, rfl⟩
  | idle =>
    cases acceptanceFault r with
    | some c => exact ⟨_, _, present_idle_illegal hm, present_idle_illegal hm, rfl⟩
    | none => exact ⟨_, _, present_idle_unchecked hm, present_idle_unchecked hm, rfl⟩

theorem acceptedAlike_identify (f g : Fields) : AcceptedAlike (requestOf 0 f) (requestOf 0 g) := ⟨rfl, rfl, rfl⟩

theorem acceptedAlike_chipErase (f g : Fields) : AcceptedAlike (requestOf 4 f) (requestOf 4 g) := ⟨rfl, rfl, rfl⟩

theorem acceptedAlike_sectorErase {f g : Fields} (haddr : f.addr = g.addr) :
    AcceptedAlike (requestOf 3 f) (requestOf 3 g) := by
  refine ⟨rfl, rfl, ?_⟩
  change sectorEraseScript f = sectorEraseScript g
  simp only [sectorEraseScript, haddr]

theorem acceptedAlike_read {f g : Fields} (haddr : f.addr = g.addr) (hlen : f.len = g.len)
    (hcap : f.dstCap = g.dstCap) : AcceptedAlike (requestOf 1 f) (requestOf 1 g) := by
  have hn : readLength f = readLength g := by rw [readLength, readLength, hlen]
  refine ⟨?_, hn, ?_⟩
  · change (if f.dstCap < readLength f then _ else _) = if g.dstCap < readLength g then _ else _
    rw [hcap, hn]
  · change readScript f = readScript g
    simp only [readScript, haddr, hn]

theorem acceptedAlike_pageProgram {f g : Fields} (haddr : f.addr = g.addr) (hlen : f.len = g.len)
    (hsrc : f.src = g.src) : AcceptedAlike (requestOf 2 f) (requestOf 2 g) := by
  have hn : programLength f = programLength g := by rw [programLength, programLength, hlen]
  refine ⟨?_, hn, ?_⟩
  · change (if f.src.length < programLength f then _ else _) = if g.src.length < programLength g then _ else _
    rw [hsrc, hn]
  · change pageProgramScript f = pageProgramScript g
    simp only [pageProgramScript, haddr, hsrc, hn]

/-- Settles O34, operation by operation: the unused fields are in none of the three things acceptance reads. -/
theorem unusedFieldsAreIgnored : Obligations.UnusedFieldsAreIgnored := by
  rintro f g s i j (⟨rfl, rfl⟩ | ⟨rfl, rfl⟩ | ⟨rfl, rfl, haddr⟩ | ⟨rfl, rfl, haddr, hlen, hcap⟩ |
    ⟨rfl, rfl, haddr, hlen, hsrc⟩)
  · exact exec_acceptedAlike rfl rfl (acceptedAlike_identify f g) s
  · exact exec_acceptedAlike rfl rfl (acceptedAlike_chipErase f g) s
  · exact exec_acceptedAlike rfl rfl (acceptedAlike_sectorErase haddr) s
  · exact exec_acceptedAlike rfl rfl (acceptedAlike_read haddr hlen hcap) s
  · exact exec_acceptedAlike rfl rfl (acceptedAlike_pageProgram haddr hlen hsrc) s

/-- A request that acceptance refuses in IDLE, with nothing selected: no bus event, only the fault entry (R107). -/
theorem exec_refused_idle {i : Instr} {r : Request} {c : FaultCode} {s : State} (hi : encode i = .request r)
    (hfault : acceptanceFault r = some c) (hm : s.mode = .idle) (hcs : s.csN = true) :
    ∃ t, exec i s = .next t ∧
      sansRecord s t = { s with trace := s.trace ++ [.fault c], fault := some c, mode := .faulted } := by
  refine ⟨raiseFault c r s, by rw [exec_of_encode hi, hfault, present_idle_illegal hm], ?_⟩
  rw [raiseFault_fields, if_pos hcs, ← hcs]
  rfl

/-- Settles O33, code by code. -/
theorem reservedCodesRaiseIllegalOp : Obligations.ReservedCodesRaiseIllegalOp := by
  rintro f s i (rfl | rfl | rfl) hm hcs
  · exact exec_refused_idle rfl rfl hm hcs
  · exact exec_refused_idle rfl rfl hm hcs
  · exact exec_refused_idle rfl rfl hm hcs

/-! ### A table word, placed and run -/

theorem placeInstr_request {i : Instr} {r : Request} (h : encode i = .request r) (s : State) :
    placeInstr i s = { s with agenda := .request r :: s.agenda } := by
  cases i with
  | readId | readData | pageProgram | sectorErase | chipErase | writeEnable | readStatus1 => cases h
  | reqIdentify | reqRead | reqPageProgram | reqSectorErase | reqChipErase | reqReserved5 | reqReserved6
    | reqReserved7 => cases h; rfl

/-- A placed frame is the one in progress, the engine is to move, and its first micro-op answers a next state. -/
theorem placeInstr_wire {i : Instr} {bytes : List Byte} (h : encode i = .wire bytes) (s : State) :
    FrameInProgress i (placeInstr i s) ∧ (placeInstr i s).agenda = .engine :: s.agenda ∧
      ∃ t, microStep { placeInstr i s with agenda := s.agenda } = .next t := by
  cases i with
  | readId | readData | pageProgram | sectorErase | chipErase | writeEnable | readStatus1 =>
    exact ⟨⟨rfl, rfl, nofun⟩, rfl, _, rfl⟩
  | reqIdentify | reqRead | reqPageProgram | reqSectorErase | reqChipErase | reqReserved5 | reqReserved6
    | reqReserved7 => cases h

/-- A frame depends on the request in progress, not on the coming moves. -/
theorem frameOf_agenda (i : Instr) (s : State) (more : List Turn) : frameOf i { s with agenda := more } = frameOf i s := by
  cases i <;> rfl

/-- A placed instruction is run by the very next step, which answers a next state. -/
theorem step_placeInstr (i : Instr) (s : State) :
    step (placeInstr i s) = exec i { placeInstr i s with agenda := s.agenda } ∧ ∃ t, step (placeInstr i s) = .next t := by
  cases hi : encode i with
  | wire bytes =>
    obtain ⟨⟨hm, hbracket, hne⟩, hagenda, hnext⟩ := placeInstr_wire hi s
    have hstep : step (placeInstr i s) = microStep { placeInstr i s with agenda := s.agenda } := by
      unfold step takeTurn
      rw [hagenda]
      exact engineTurn_run (s := { placeInstr i s with agenda := s.agenda }) hm
    have hframe := frameOf_agenda i (placeInstr i s) s.agenda
    rw [hstep, exec_frame (i := i) (s := { placeInstr i s with agenda := s.agenda }) hm (hbracket.trans hframe.symm)
      (hframe ▸ hne)]
    exact ⟨rfl, hnext⟩
  | request r =>
    have hstep : step (placeInstr i s) = hostRequest r s := by rw [placeInstr_request hi]; rfl
    rw [hstep, placeInstr_request hi]
    exact ⟨by rw [hostRequest, decodeRequest_of_encode hi], hostRequest_next r s⟩

/-- Settles O59: a word that stands for an instruction is placed as that instruction; and one word of each row. -/
theorem tableWordsRunNext : Obligations.TableWordsRunNext := by
  refine ⟨fun nbits w i hw => ?_, by decide⟩
  have hplaced : State.reset.withFetchWord nbits w = placeInstr i State.reset := by rw [State.withFetchWord, hw]
  rw [hplaced]
  exact step_placeInstr i State.reset

end Sys2Proof.Machine

/-! ## The bus: whose turn it is, the micro-ops, the frames and the bracket discipline

Whose turn a move is (R80, R113), each micro-op as a whole-state equation (R75-R79), the wire rows as the micro-ops of
their frames, the hang of R82, and the bracket discipline of the trace (R69, R71, R72). -/

namespace Sys2Proof.Machine
open Sys2Proof Sys2Proof.Claims

/-! ### What a move of the agenda means -/

theorem step_of_nil {s : State} (ha : s.agenda = []) : step s = engineTurn s := by
  simp only [step, takeTurn, ha]

theorem step_of_engine {s : State} {more : List Turn} (ha : s.agenda = .engine :: more) :
    step s = engineTurn { s with agenda := more } := by
  simp only [step, takeTurn, ha]

theorem step_of_request {s : State} {r : Request} {more : List Turn} (ha : s.agenda = .request r :: more) :
    step s = hostRequest r { s with agenda := more } := by
  simp only [step, takeTurn, ha]

/-- A host that keeps HZ1 presents its request in IDLE alone (R126). -/
theorem step_of_await {s : State} {r : Request} {more : List Turn} (ha : s.agenda = .await r :: more) :
    step s = if s.mode = .idle then hostRequest r { s with agenda := more } else engineTurn s := by
  simp [step, takeTurn, ha, ready]

/-- Settles O11: with the engine to move, the frame fetched in RUN is the micro-op at `ip`, and outside RUN there is no
engine step. -/
theorem engineTurnIsTheMicroOpAtIp : Obligations.EngineTurnIsTheMicroOpAtIp := by
  refine ⟨fun s ha hm => ?_, fun s more ha hm => ?_, fun s ha hm => ?_, fun s more ha hm => ?_⟩
  · rcases ha with ha | ⟨r, more, ha⟩
    · rw [step_of_nil ha, engineTurn_run hm]
    · exact step_await ha hm
  · rw [step_of_engine ha]; exact engineTurn_run (s := { s with agenda := more }) hm
  · rcases ha with ha | ⟨hf, r, more, ha⟩
    · rw [step_of_nil ha, engineTurn_not_run hm]
    · rw [step_of_await ha, if_neg (by simp [hf]), engineTurn_not_run hm]
  · rw [step_of_engine ha]; exact engineTurn_not_run (s := { s with agenda := more }) hm

/-- A bracket whose bytes decode is not empty, so the frame it is equal to is in progress. -/
theorem frameInProgress_of_decode {s : State} {i : Instr} {rest : List Byte} (hm : s.mode = .run)
    (hd : decodeFrame (bracketBytes (bracketAt s.script s.ip)) = .ok (i, rest))
    (hb : bracketAt s.script s.ip = frameOf i s) : FrameInProgress i s := by
  refine ⟨hm, hb, fun hempty => ?_⟩
  rw [hb, hempty] at hd
  cases hd

/-- A wire row whose frame is in progress is the engine's turn, which is the micro-op at `ip`. -/
theorem exec_inProgress {i : Instr} {s : State} (h : FrameInProgress i s) : exec i s = microStep s := by
  obtain ⟨hm, hb, hne⟩ := h
  exact exec_frame hm hb hne

/-- Settles O9: the engine's turn and the frame are the same micro-op; a presented request is `exec` by definition. -/
theorem stepRunsTheDecodedInstruction : Obligations.StepRunsTheDecodedInstruction := by
  refine ⟨fun s i rest hm hd hb ha => ?_, fun s i rest more hm hd hb ha => ?_, fun s r more ha => ?_,
    fun s r more ha hm => ?_⟩
  · rw [step_of_nil ha, engineTurn_run hm, exec_inProgress (frameInProgress_of_decode hm hd hb)]
  · have hframe : FrameInProgress i { s with agenda := more } :=
      frameInProgress_of_decode (s := { s with agenda := more }) hm hd (hb.trans (frameOf_agenda i s more).symm)
    rw [step_of_engine ha, exec_inProgress hframe]
    exact engineTurn_run hframe.1
  · exact step_of_request ha
  · rw [step_of_await ha, if_pos hm]; rfl

/-! ### The micro-ops as whole-state equations -/

theorem microStep_csa {s : State} (hu : s.script[s.ip]? = some .csa) (hcs : s.csN = true) :
    microStep s = .next { s with csN := false, trace := s.trace ++ [.sel], ip := s.ip + 1 } := by
  simp [microStep, hu, microCsa, driveCs_eq, hcs, advance]

theorem microStep_csd {s : State} (hu : s.script[s.ip]? = some .csd) (hcs : s.csN = false) :
    microStep s = .next { s with csN := true, trace := s.trace ++ [.desel], ip := s.ip + 1 } := by
  simp [microStep, hu, microCsd, driveCs_eq, hcs, advance]

theorem microStep_tx {s : State} {b : Byte} (hu : s.script[s.ip]? = some (.tx b)) (hl : s.transport = .live) :
    microStep s = .next { s with trace := s.trace ++ [.tx b], ip := s.ip + 1 } :=
  micro_play hu hl rfl

/-- An exchange completes, or leaves the state as it is (R67, R82). -/
theorem exchange_eq_or (f : State → Answer) (s : State) : exchange f s = f s ∨ exchange f s = .next s := by
  unfold exchange
  split
  · exact .inl rfl
  · exact .inr rfl

/-- At an exchange the transport does not complete, a micro-op leaves the state as it is (R82). -/
theorem microStep_stalled {s : State} (hx : AtExchange s) (htr : s.transport = .stalled) : microStep s = .next s := by
  rcases hx with ⟨b, hu⟩ | ⟨k, hu⟩ | ⟨i, hu, hi⟩ | ⟨hu, hp | hp⟩
  · simp only [microStep, hu, microTx, exchange, htr]
  · simp only [microStep, hu, microRxi, exchange, htr]
  · simp only [microStep, hu, microRxd, if_pos hi, exchange, htr]
  · simp only [microStep, hu, microPoll, hp, exchange, htr]
  · simp only [microStep, hu, microPoll, hp, exchange, htr]

theorem stalled_of_not_live {s : State} (h : s.transport ≠ .live) : s.transport = .stalled := by
  cases htr : s.transport with
  | live => exact absurd htr h
  | stalled => rfl

/-- Settles O12, by the equation of CSA (R75). -/
theorem csaAssertsSelect : Obligations.CsaAssertsSelect := fun _ _ hu hcs => microStep_csa hu hcs

/-- Settles O13, by the equation of CSD (R76). -/
theorem csdReleasesSelect : Obligations.CsdReleasesSelect := fun _ _ hu hcs => microStep_csd hu hcs

/-- Settles O14, by whether the transport completes the exchange. -/
theorem txTransmitsOneByte : Obligations.TxTransmitsOneByte := by
  intro s b _ hu _
  split_ifs with hl
  · exact microStep_tx hu hl
  · exact microStep_stalled (.inl ⟨b, hu⟩) (stalled_of_not_live hl)

/-- A write of `id_buf`, entry by entry (R21). -/
theorem IdBuf.put_eq (k : Fin 3) (v : Byte) (b : IdBuf) :
    b.put k v = ⟨if k = 0 then v else b.b0, if k = 1 then v else b.b1, if k = 2 then v else b.b2⟩ := by
  match k with
  | 0 | 1 | 2 => rfl

/-- Settles O15: the byte of a completed exchange goes to one entry of `id_buf` or to one address of the host's memory. -/
theorem rxiAndRxdReceiveOneByte : Obligations.RxiAndRxdReceiveOneByte := by
  refine ⟨fun s k _ hu _ hl => ?_, fun s r k _ hu _ hr hk hl => ?_, fun s _ htr hx => ?_⟩
  · refine ⟨chipByte s, _, micro_play hu hl rfl, ?_⟩
    rw [← IdBuf.put_eq]
    rfl
  · have hcap : k < dstCap s := by simpa [dstCap, hr] using hk
    have haddr : dstAddr s k = r.dstBase + k := by simp [dstAddr, hr]
    refine ⟨chipByte s, _, micro_play hu hl (decide_eq_true hcap), ?_, fun a => ?_⟩
    · simp [play1, writeDst, receive, advance, emit]
    · rw [← haddr]
      exact memRead_memWrite s.dst (dstAddr s k) (chipByte s) a
  · rcases hx with hrxi | hrxd
    · exact microStep_stalled (.inr (.inl hrxi)) htr
    · exact microStep_stalled (.inr (.inr (.inl hrxd))) htr

/-- Settles O18: the identifier is the shifted-or of `id_buf` (R93), given for IDENTIFY alone. -/
theorem retCompletesTheRequest : Obligations.RetCompletesTheRequest := by
  intro s r _ hu hr _
  have hid : responseId s = if r.op = 0 then some (identifier s.idBuf) else none := by rw [responseId, hr]
  simp only [microStep, hu, microRet, hid]
  rfl

/-! ### The wire rows inside their frames -/

/-- Settles O20: the row is the micro-op at `ip`. -/
theorem framesSelectTransmitAndRelease : Obligations.FramesSelectTransmitAndRelease := by
  intro i s h
  rw [exec_inProgress h]
  exact ⟨microStep_csa, fun _ => microStep_tx, microStep_csd⟩

/-! #### Which micro-op a frame in progress is at -/

theorem bracketStart_le (us : List MicroOp) (k : Nat) : bracketStart us k ≤ k := by
  induction k with
  | zero => exact le_rfl
  | succ k ih =>
    rw [bracketStart]
    split_ifs
    · exact le_rfl
    · exact ih.trans (Nat.le_succ k)

/-- The bracket around an index, where there is one, holds the micro-op there. -/
theorem mem_bracketAt {us : List MicroOp} {k : Nat} {u : MicroOp} (hu : us[k]? = some u) (hne : bracketAt us k ≠ []) :
    u ∈ bracketAt us k := by
  have hin : ∀ j, j ≤ k → k < j + (uptoCsd (us.drop j)).length → u ∈ uptoCsd (us.drop j) := by
    intro j hj hk
    have hlt : k - j < (uptoCsd (us.drop j)).length := by omega
    refine List.mem_of_getElem? (i := k - j) ?_
    rw [List.getElem?_eq_getElem hlt, (uptoCsd_prefix (us.drop j)).getElem hlt, ← List.getElem?_eq_getElem,
      List.getElem?_drop, Nat.add_sub_cancel' hj, hu]
  unfold bracketAt at hne ⊢
  rw [hu] at hne ⊢
  cases u with
  | poll => exact List.mem_singleton_self _
  | ret => exact absurd rfl hne
  | csa | csd | tx | rxi | rxd =>
    dsimp only at hne ⊢
    split_ifs at hne ⊢ with hlt
    · exact hin _ (bracketStart_le us k) hlt
    · exact absurd rfl hne

/-- A lone POLL is the frame of READ_STATUS_1 and of no other row: theirs begin with a CSA, or have no micro-op. -/
theorem frameOf_ne_poll {i : Instr} (hi : i ≠ .readStatus1) (s : State) : frameOf i s ≠ readStatusFrame := by
  cases i with
  | readStatus1 => exact absurd rfl hi
  | readId | readData | pageProgram | sectorErase | chipErase | writeEnable | reqIdentify | reqRead | reqPageProgram
    | reqSectorErase | reqChipErase | reqReserved5 | reqReserved6 | reqReserved7 => nofun

/-- RET belongs to no frame, and POLL to READ_STATUS_1 alone. -/
theorem microOp_of_frame {i : Instr} {s : State} {u : MicroOp} (h : FrameInProgress i s) (hu : s.script[s.ip]? = some u) :
    u ≠ .ret ∧ (u = .poll ↔ i = .readStatus1) := by
  obtain ⟨-, hb, hne⟩ := h
  refine ⟨?_, ?_, ?_⟩
  · rintro rfl
    exact hne (hb.symm.trans (bracketAt_ret hu))
  · rintro rfl
    by_contra hi
    exact frameOf_ne_poll hi s (hb.symm.trans (bracketAt_poll hu))
  · rintro rfl
    have hmem := mem_bracketAt hu (hb ▸ hne)
    rw [hb] at hmem
    exact List.mem_singleton.1 hmem

/-! #### What a micro-op of a frame changes -/

theorem plain_of_frame {u : MicroOp} {d : Nat} (hret : u ≠ .ret) (hpoll : u ≠ .poll) (hin : ∀ k, u = .rxd k → k < d) :
    plain d u = true := by
  cases u with
  | csa | csd | tx | rxi => rfl
  | rxd i => exact decide_eq_true (hin i rfl)
  | poll => exact absurd rfl hpoll
  | ret => exact absurd rfl hret

/-- A micro-op of a bracket takes its effect, or waits at an exchange that does not complete. -/
theorem microStep_plain {s : State} {u : MicroOp} (hu : s.script[s.ip]? = some u) (hp : plain (dstCap s) u = true) :
    microStep s = .next (play1 u s) ∨ microStep s = .next s := by
  rw [microStep, hu]
  cases u with
  | csa | csd => exact .inl rfl
  | tx | rxi => exact exchange_eq_or _ s
  | rxd i =>
    simp only [microRxd, if_pos (of_decide_eq_true hp)]
    exact exchange_eq_or _ s
  | poll | ret => cases hp

/-- A micro-op of a bracket writes the select line, the index, the trace, the answers, `id_buf` and the host's memory. -/
theorem play1_frame (u : MicroOp) (s : State) : play1 u s = { s with
    csN := (play1 u s).csN, ip := (play1 u s).ip, idBuf := (play1 u s).idBuf, dst := (play1 u s).dst
    trace := (play1 u s).trace, chip := (play1 u s).chip } := by
  cases u with
  | csa | csd => simp only [play1, driveCs_eq, advance]
  | tx | rxi | rxd | poll | ret => rfl

theorem play1_idBuf {u : MicroOp} (hu : ∀ k, u ≠ .rxi k) (s : State) : (play1 u s).idBuf = s.idBuf := by
  cases u with
  | csa | csd => simp [play1]
  | rxi k => exact absurd rfl (hu k)
  | tx | rxd | poll | ret => rfl

/-- Every `id_buf` is itself with some byte written at entry `k`: the byte already there. -/
theorem IdBuf.eq_put (k : Fin 3) (b : IdBuf) : ∃ v, b = b.put k v := by
  match k with
  | 0 => exact ⟨b.b0, rfl⟩
  | 1 => exact ⟨b.b1, rfl⟩
  | 2 => exact ⟨b.b2, rfl⟩

/-- A byte of the host's memory stays, but at the place of an RXD's offset. -/
theorem memRead_of_microStep {s t : State} {u : MicroOp} {a : Nat} (hu : s.script[s.ip]? = some u)
    (hx : microStep s = .next t) (ha : ∀ k, u = .rxd k → a ≠ dstAddr s k) : memRead t.dst a = memRead s.dst a := by
  by_contra hne
  obtain ⟨k, hk, -, hplace, -⟩ := microStep_memRead hx hne
  exact ha k (Option.some_inj.1 (hu.symm.trans hk)) hplace

/-- POLL stays in its mode and writes the select line, the index, the status byte, the poll fields, the trace and the
answers; or it ends the request, at a finite bound (R86, R89). -/
def PollEffect (s t : State) : Prop :=
  (t.mode = s.mode ∧ t = { s with
    csN := t.csN, ip := t.ip, st := t.st, pollPhase := t.pollPhase, pollCount := t.pollCount, trace := t.trace
    chip := t.chip }) ∨
  (t.mode = .idle ∧ s.pollLimit ≠ none ∧ t = cleared { s with csN := true, trace := t.trace })

theorem pollEffect_pollDecide (s : State) : PollEffect s (pollDecide s) := by
  rw [pollDecide_eq]
  split_ifs with hready hbound
  · exact .inl ⟨by simp, by simp only [driveCs_eq]⟩
  · exact .inr ⟨rfl, by simp [hbound], by rw [driveCs_eq]; rfl⟩
  · exact .inl ⟨by simp, by simp only [driveCs_eq]⟩

theorem microStep_poll {s : State} (hu : s.script[s.ip]? = some .poll) : ∃ t, microStep s = .next t ∧ PollEffect s t := by
  have hmicro : microStep s = microPoll s := by simp only [microStep, hu]
  rw [hmicro]
  unfold microPoll
  cases s.pollPhase with
  | pCsa =>
    rw [driveCs_eq]
    exact ⟨_, rfl, .inl ⟨rfl, rfl⟩⟩
  | pTx | pRx =>
    rcases exchange_eq_or _ s with hx | hx
    · exact ⟨_, hx, .inl ⟨rfl, rfl⟩⟩
    · exact ⟨s, hx, .inl ⟨rfl, rfl⟩⟩
  | pCsd => exact ⟨_, rfl, pollEffect_pollDecide s⟩

/-- Settles O19: the row is the micro-op at `ip`, which is POLL for READ_STATUS_1 and a micro-op of a bracket for the
others. -/
theorem framesRunTheirMicroOps : Obligations.FramesRunTheirMicroOps := by
  intro i s u h hu hin
  obtain ⟨hret, hpoll⟩ := microOp_of_frame h hu
  rw [exec_inProgress h]
  by_cases hi : i = .readStatus1
  · obtain rfl := hpoll.2 hi
    obtain ⟨t, hx, heffect⟩ := microStep_poll hu
    refine ⟨t, hx, hx, fun a => memRead_of_microStep hu hx, absurd hi, absurd hi, nofun, fun _ hrun => ?_, fun _ hne => ?_⟩
    · rcases heffect with ⟨-, ht⟩ | ⟨hidle, -⟩
      · exact ht
      · cases hrun.symm.trans hidle
    · rcases heffect with ⟨hmode, -⟩ | ⟨-, hend⟩
      · exact absurd (hmode.trans h.1) hne
      · exact hend
  · rcases microStep_plain hu (plain_of_frame hret (mt hpoll.1 hi) hin) with hx | hx
    · refine ⟨_, hx, hx, fun a => memRead_of_microStep hu hx, fun _ => play1_frame u s, fun _ hk => play1_idBuf hk s, ?_,
        fun hs => absurd hs hi, fun hs => absurd hs hi⟩
      rintro k rfl
      exact ⟨chipByte s, IdBuf.put_eq ..⟩
    · refine ⟨s, hx, hx, fun a _ => rfl, fun _ => rfl, fun _ _ => rfl, fun k _ => ?_,
        fun hs => absurd hs hi, fun hs => absurd hs hi⟩
      obtain ⟨v, hv⟩ := s.idBuf.eq_put k
      exact ⟨v, hv.trans (IdBuf.put_eq ..)⟩

/-! ### A transport that stalls for good -/

/-- Settles O41, by induction on the number of steps. -/
theorem stalledTransportHangs : Obligations.StalledTransportHangs := by
  intro s k ha hm htr hx
  have hstep : step s = .next s := by rw [step_of_nil ha, engineTurn_run hm, microStep_stalled hx htr]
  induction k with
  | zero => rfl
  | succ k ih => rw [runSteps_next k hstep, ih]

/-! ### The bracket discipline (R69, R71, R72) -/

theorem busRun_append (b : BusState) (es fs : List Event) :
    busRun b (es ++ fs) = (busRun b es).bind fun b' => busRun b' fs := by
  induction es generalizing b with
  | nil => rfl
  | cons e es ih =>
    simp only [List.cons_append, busRun]
    cases busNext b e with
    | none => rfl
    | some b' => exact ih b'

/-- The discipline goes on where the appended events lead from one place of the wire to the other. -/
theorem BusDisciplined.append {s t : State} {es : List Event} (h : BusDisciplined s) (ht : t.trace = s.trace ++ es)
    (hes : busRun (busAt s) es = some (busAt t)) : BusDisciplined t := by
  unfold BusDisciplined at h ⊢
  rw [ht, busRun_append, h]
  exact hes

/-! #### Where the wire stands -/

theorem busAt_high {s : State} (hcs : s.csN = true) : busAt s = .high := if_pos hcs

theorem busAt_poll {s : State} (hcs : s.csN = false) (hu : s.script[s.ip]? = some .poll) :
    busAt s = if s.pollPhase = .pTx then .selected else .opened := by
  simp [busAt, hcs, hu]

theorem busAt_low {s : State} (hcs : s.csN = false) : busAt s = .selected ∨ busAt s = .opened := by
  simp only [busAt, hcs, Bool.false_eq_true, if_false]
  split_ifs
  · exact .inl rfl
  · exact .inr rfl
  · exact .inl rfl
  · exact .inr rfl

/-- Only a TX comes right after the select, so at any other byte or release the opcode byte is past. -/
theorem busAt_opened {s : State} (h : InProgress s) (hcs : s.csN = false) {u : MicroOp} (hu : s.script[s.ip]? = some u)
    (hpoll : u ≠ .poll) (hf : follows .csa u = false) : busAt s = .opened := by
  obtain ⟨r, -, ha, -, hs⟩ := h.request
  have hcsa : ¬ (0 < s.ip ∧ s.script[s.ip - 1]? = some .csa) := by
    rintro ⟨hpos, hprev⟩
    rw [hs] at hu hprev
    exact absurd (scriptOf_prev ha hpos hu hprev nofun) (by simp [hf])
  simp [busAt, hcs, hu, hpoll, hcsa]

/-- Where a micro-op leaves the wire. -/
def busAfter : MicroOp → BusState
  | .csa => .selected
  | .tx _ | .rxi _ | .rxd _ => .opened
  | .csd | .poll | .ret => .high

/-- One index on, the wire stands where the micro-op left it: POLL comes only after a release. -/
theorem busAt_next {s t : State} (h : InProgress s) {u : MicroOp} (hu : s.script[s.ip]? = some u) (hne : u ≠ .ret)
    (hscript : t.script = s.script) (hip : t.ip = s.ip + 1) (hcs : t.csN = levelAfter u) : busAt t = busAfter u := by
  obtain ⟨r, -, ha, -, hs⟩ := h.request
  obtain ⟨v, hv, hf⟩ := scriptOf_next ha (hs ▸ hu) hne
  rw [← hs] at hv
  cases u with
  | csd | poll => exact busAt_high hcs
  | ret => exact absurd rfl hne
  | csa | tx | rxi | rxd =>
    have hpoll : v ≠ .poll := by rintro rfl; cases hf
    simp [busAt, hcs, levelAfter, hscript, hip, hv, hu, hpoll, busAfter]

/-! #### Operation by operation -/

/-- A release of the select line, cutting a bracket if need be, and then a FAULT or a RESET. -/
theorem busDisciplined_release {s t : State} {e : Event} (h : BusDisciplined s) (hcs : t.csN = true)
    (ht : t.trace = (driveCs true s).trace ++ [e]) (hhigh : busNext .high e = some .high)
    (hcut : busNext .cut e = some .high) : BusDisciplined t := by
  have hafterCut : busRun .cut [e] = some .high := by simp only [busRun, hcut]
  have hafterHigh : busRun .high [e] = some .high := by simp only [busRun, hhigh]
  rw [driveCs_trace, List.append_assoc] at ht
  refine h.append ht ?_
  rw [busAt_high hcs]
  by_cases hup : s.csN = true
  · rw [busAt_high hup, if_pos hup]; exact hafterHigh
  · rw [if_neg hup]
    rcases busAt_low (Bool.not_eq_true _ ▸ hup) with hw | hw <;> rw [hw]
    · exact hafterCut
    · exact hafterHigh

theorem busDisciplined_raiseFault {s : State} (h : BusDisciplined s) (c : FaultCode) (r : Request) :
    BusDisciplined (raiseFault c r s) :=
  busDisciplined_release (e := .fault c) h (driveCs_csN true s) rfl rfl rfl

theorem busDisciplined_resetInput {s : State} (h : BusDisciplined s) : BusDisciplined (resetInput s) :=
  busDisciplined_release (e := .reset) h (driveCs_csN true s) rfl rfl rfl

/-- Acceptance in IDLE, with select high, puts nothing on the wire (R105). -/
theorem busDisciplined_latch {s : State} (h : BusDisciplined s) (hcs : s.csN = true) (r : Request) (n : Nat)
    (us : List MicroOp) : BusDisciplined (latch r n us s) := by
  refine h.append (es := []) (by simp) ?_
  rw [busAt_high hcs, busAt_high (s := latch r n us s) hcs]
  rfl

/-- With select high, a completion response is in place and the select line stays (R72). -/
theorem busDisciplined_complete {s : State} (h : BusDisciplined s) (hcs : s.csN = true) (res : Result)
    (id : Option Ident) : BusDisciplined (complete res id s) := by
  refine h.append (es := [.done res id]) rfl ?_
  rw [busAt_high hcs, busAt_high (s := complete res id s) hcs]
  rfl

/-- A micro-op of a bracket, its exchange completed. -/
theorem busDisciplined_play1 {s : State} (h : InProgress s) (hb : BusDisciplined s) {u : MicroOp} {d : Nat}
    (hu : s.script[s.ip]? = some u) (hp : plain d u = true) : BusDisciplined (play1 u s) := by
  have level := h.level
  obtain ⟨-, kscript, -, -, -, -, kip⟩ := play1_keeps hp s
  have hne : u ≠ .ret := by rintro rfl; cases hp
  have hafter : busAt (play1 u s) = busAfter u := busAt_next h hu hne kscript kip (play1_csN hp hu level)
  simp only [levelAtIp, hu] at level
  cases u with
  | csa => exact hb.append (es := [.sel]) (by simp [play1, driveCs_trace, level]) (by rw [busAt_high level, hafter]; rfl)
  | csd =>
    have hopen := busAt_opened h level hu nofun rfl
    exact hb.append (es := [.desel]) (by simp [play1, driveCs_trace, level]) (by rw [hopen, hafter]; rfl)
  | tx b =>
    refine hb.append (es := [.tx b]) rfl ?_
    rcases busAt_low level with hw | hw <;> rw [hw, hafter] <;> rfl
  | rxi k =>
    have hopen := busAt_opened h level hu nofun rfl
    exact hb.append (es := [.rx (chipByte s)]) rfl (by rw [hopen, hafter]; rfl)
  | rxd i =>
    have hopen := busAt_opened h level hu nofun rfl
    exact hb.append (es := [.rx (chipByte s), .dw i (chipByte s)]) (by simp [play1]) (by rw [hopen, hafter]; rfl)
  | poll | ret => cases hp

/-- A phase of POLL that keeps the bracket of its iteration open (R86). -/
theorem busDisciplined_poll {s t : State} {es : List Event} (hb : BusDisciplined s) (ht : t.trace = s.trace ++ es)
    (hcs : t.csN = false) (hu : t.script[t.ip]? = some .poll)
    (hes : busRun (busAt s) es = some (if t.pollPhase = .pTx then .selected else .opened)) : BusDisciplined t := by
  rw [← busAt_poll hcs hu] at hes
  exact hb.append ht hes

/-- The release at the end of a poll iteration, and the DONE at the bound after it. -/
theorem busDisciplined_pollDecide {s : State} (hb : BusDisciplined s) (hcs : s.csN = false)
    (hu : s.script[s.ip]? = some .poll) (hp : s.pollPhase = .pCsd) : BusDisciplined (pollDecide s) := by
  have hopen : busAt s = .opened := by rw [busAt_poll hcs hu, hp]; rfl
  have hrelease {t : State} (ht : t.trace = (driveCs true s).trace) (hup : t.csN = true) : BusDisciplined t :=
    hb.append (es := [.desel]) (by simp [ht, driveCs_trace, hcs]) (by rw [hopen, busAt_high hup]; rfl)
  rw [pollDecide_eq]
  split_ifs
  · exact hrelease rfl (driveCs_csN true s)
  · exact busDisciplined_complete (hrelease rfl (driveCs_csN true s)) (driveCs_csN true s) ..
  · exact hrelease rfl (driveCs_csN true s)

/-- Every micro-op of a request in progress: an event the wire admits there, or none at a stalled exchange. -/
theorem busDisciplined_microStep {s t : State} (h : InProgress s) (hb : BusDisciplined s) (hx : microStep s = .next t) :
    BusDisciplined t := by
  have level := h.level
  rcases microStep_cases hx with ⟨hu, rfl⟩ | ⟨hu, rfl⟩ | ⟨b, hu, rfl⟩ | ⟨k, hu, rfl⟩ | ⟨i, hu, hi, rfl⟩ | ⟨hu, hp, rfl⟩ |
    ⟨hu, hp, rfl⟩ | ⟨hu, hp, rfl⟩ | ⟨hu, hp, rfl⟩ | ⟨hu, rfl⟩ | ⟨rfl, -⟩
  · exact busDisciplined_play1 (d := 0) h hb hu rfl
  · exact busDisciplined_play1 (d := 0) h hb hu rfl
  · exact busDisciplined_play1 (d := 0) h hb hu rfl
  · exact busDisciplined_play1 (d := 0) h hb hu rfl
  · exact busDisciplined_play1 h hb hu (decide_eq_true hi)
  · simp only [levelAtIp, hu, hp] at level
    exact busDisciplined_poll hb (es := [.sel]) (by simp [driveCs_trace, level]) (by simp) (by simpa using hu)
      (by rw [busAt_high level]; rfl)
  · simp only [levelAtIp, hu, hp] at level
    exact busDisciplined_poll hb (es := [.tx opReadStatus1]) rfl level hu (by rw [busAt_poll level hu, hp]; rfl)
  · simp only [levelAtIp, hu, hp] at level
    exact busDisciplined_poll hb (es := [.rx (chipByte s)]) rfl level hu (by rw [busAt_poll level hu, hp]; rfl)
  · simp only [levelAtIp, hu, hp] at level
    exact busDisciplined_pollDecide hb level hu hp
  · simp only [levelAtIp, hu] at level
    exact busDisciplined_complete hb level ..
  · exact hb

/-- Settles O45: each of the five effects a step can have leads the wire from where it stands to where the engine's state
says. -/
theorem everyStepKeepsTheBracketDiscipline : Obligations.EveryStepKeepsTheBracketDiscipline := by
  intro s t h hb hs
  rcases step_effect hs with ⟨c, r, more, -, rfl⟩ | ⟨r, more, hm, -, rfl⟩ | ⟨more, -, rfl⟩ | ⟨more, tr, rfl⟩ |
    ⟨more, hm, hx, -⟩
  · exact busDisciplined_raiseFault (s := { s with agenda := more }) hb c r
  · exact busDisciplined_latch (s := { s with agenda := more }) hb (h.idle hm).level ..
  · exact busDisciplined_resetInput (s := { s with agenda := more }) hb
  · exact hb
  · exact busDisciplined_microStep ((engineInv_outside h more s.transport).run hm) hb hx

end Sys2Proof.Machine

/-! ## The helpers: write-enable, the busy-poll, and the requests that need them

Runs of micro-ops, behind a frame's meaning and behind the step alike; a bracket played from its select to its release
(R69, R83); the frame fetched at each index of a script (R84, R91); the busy-poll phase by phase, iteration by iteration
and up to its bound (R86, R87, R89). -/

namespace Sys2Proof.Machine
open Sys2Proof Sys2Proof.Claims

/-! ### Runs of micro-ops -/

/-- `k` micro-ops lead from one state to another, and `q` holds in every state one of them is taken in. -/
inductive MicroRun (q : State → Prop) : Nat → State → State → Prop where
  | done (s : State) : MicroRun q 0 s s
  | more {k : Nat} {s t u : State} (hq : q s) (hs : microStep s = .next t) (ht : MicroRun q k t u) :
    MicroRun q (k + 1) s u

theorem MicroRun.mono {p q : State → Prop} {k : Nat} {s t : State} (h : MicroRun p k s t) (hpq : ∀ u, p u → q u) :
    MicroRun q k s t := by
  induction h with
  | done s => exact .done s
  | more hp hs _ ih => exact .more (hpq _ hp) hs ih

/-- With nothing lined up, the steps of the machine in RUN are the micro-ops (R80). -/
theorem runSteps_of_microRun {k : Nat} {s t : State} (h : MicroRun (fun u => u.mode = .run ∧ u.agenda = []) k s t) :
    runSteps k s = .next t := by
  induction h with
  | done s => rfl
  | more hq hs _ ih => rw [runSteps_next _ ((step_of_nil hq.2).trans ((engineTurn_run hq.1).trans hs)), ih]

/-- While its frame is in progress, a wire row's meaning is the micro-ops (log 2). -/
theorem runFrame_of_microRun {i : Instr} {k : Nat} {s t : State} (h : MicroRun (FrameInProgress i) k s t) :
    runFrame k i s = .next t := by
  induction h with
  | done s => rfl
  | more hq hs _ ih => rw [runFrame, exec_inProgress hq, hs]; exact ih

/-- The request in progress is that of `s`, at one of the `k` indices of its script from that of `s` on, with the same
moves to come. -/
structure Within (s : State) (k : Nat) (u : State) : Prop where
  mode : u.mode = .run
  script : u.script = s.script
  req : u.req = s.req
  n : u.n = s.n
  agenda : u.agenda = s.agenda
  start : s.ip ≤ u.ip
  stop : u.ip < s.ip + k

theorem runSteps_of_within {j k : Nat} {s t : State} (ha : s.agenda = []) (h : MicroRun (Within s j) k s t) :
    runSteps k s = .next t :=
  runSteps_of_microRun (h.mono fun _ hu => ⟨hu.mode, hu.agenda.trans ha⟩)

/-- Micro-ops of a bracket that stand next in the script take their effects one after the other. -/
theorem microRun_play {us : List MicroOp} {s : State} (hm : s.mode = .run) (hl : s.transport = .live)
    (hnext : us <+: s.script.drop s.ip) (hp : ∀ u ∈ us, plain (dstCap s) u = true) :
    MicroRun (Within s us.length) us.length s (play us s) := by
  induction us generalizing s with
  | nil => exact .done s
  | cons u us ih =>
    obtain ⟨hu, hrest⟩ : s.script[s.ip]? = some u ∧ us <+: s.script.drop (s.ip + 1) := by
      obtain ⟨post, hpost⟩ := hnext
      refine ⟨?_, post, ?_⟩
      · rw [← Nat.add_zero s.ip, ← List.getElem?_drop, ← hpost]; rfl
      · rw [← List.drop_drop, ← hpost]; rfl
    have hpu := hp u List.mem_cons_self
    obtain ⟨kmode, kscript, kreq, kn, klive, kagenda, kip⟩ := play1_keeps hpu s
    have hcap : dstCap (play1 u s) = dstCap s := by rw [dstCap, dstCap, kreq]
    have hplay := ih (s := play1 u s) (kmode.trans hm) (klive.trans hl) (by rw [kscript, kip]; exact hrest)
      (fun v hv => hcap ▸ hp v (List.mem_cons_of_mem u hv))
    refine .more ⟨hm, rfl, rfl, rfl, rfl, le_rfl, by simp⟩ (micro_play hu hl hpu) (hplay.mono fun v hv => ?_)
    have hstart := hv.start
    have hstop := hv.stop
    rw [kip] at hstart hstop
    exact ⟨hv.mode, hv.script.trans kscript, hv.req.trans kreq, hv.n.trans kn, hv.agenda.trans kagenda, by omega,
      by rw [List.length_cons]; omega⟩

/-! ### Brackets -/

/-- The micro-ops that move a byte, which is all a bracket has between its select and its release (R69). -/
def MovesByte (u : MicroOp) : Prop := u ≠ .csa ∧ u ≠ .csd ∧ u ≠ .poll ∧ u ≠ .ret

theorem length_bracket (i : Instr) (data : List MicroOp) :
    (bracket i data).length = (commandBytes i).length + data.length + 2 := by
  simp only [bracket, List.length_append, List.length_cons, List.length_map, List.length_nil]
  omega

/-- The frame of a wire row other than READ_STATUS_1 is one bracket around its command part and its data phase (R58). -/
theorem frameOf_eq_bracket {i : Instr} {bytes : List Byte} (hi : encode i = .wire bytes) (hne : i ≠ .readStatus1)
    (s : State) : ∃ data, frameOf i s = bracket i data ∧ ∀ u ∈ data, MovesByte u := by
  cases i with
  | readId => exact ⟨_, rfl, by simp [MovesByte]⟩
  | readData a => exact ⟨_, rfl, by simp [MovesByte]⟩
  | pageProgram a => exact ⟨_, rfl, by simp [MovesByte]⟩
  | sectorErase | chipErase | writeEnable => exact ⟨[], rfl, nofun⟩
  | readStatus1 => exact absurd rfl hne
  | reqIdentify | reqRead | reqPageProgram | reqSectorErase | reqChipErase | reqReserved5 | reqReserved6
    | reqReserved7 => cases hi

/-- A frame depends on the captured request and its length alone (R58). -/
theorem frameOf_congr (i : Instr) {s t : State} (hreq : t.req = s.req) (hn : t.n = s.n) :
    frameOf i t = frameOf i s := by
  have hsrc : capturedSrc t = capturedSrc s := by rw [capturedSrc, capturedSrc, hreq]
  cases i <;> simp only [frameOf, hn, hsrc]

section
variable {i : Instr} {bytes : List Byte} {s : State} {pre post : List MicroOp}
variable (hi : encode i = .wire bytes) (hne : i ≠ .readStatus1) (hscript : s.script = pre ++ frameOf i s ++ post)
variable (hstart : pre.length ≤ s.ip) (hstop : s.ip < pre.length + (frameOf i s).length)
include hi hne hscript hstart hstop

/-- At every index of a frame of the script, the bracket around the index is the frame. -/
theorem bracketAt_frame : bracketAt s.script s.ip = frameOf i s := by
  obtain ⟨data, hframe, hdata⟩ := frameOf_eq_bracket hi hne s
  rw [hframe] at hscript hstop ⊢
  rw [hscript]
  have hbody : ∀ u ∈ (commandBytes i).map MicroOp.tx ++ data, MovesByte u := by
    intro u hu
    rcases List.mem_append.1 hu with hu | hu
    · obtain ⟨b, -, rfl⟩ := List.mem_map.1 hu
      simp [MovesByte]
    · exact hdata u hu
  have hinside : s.ip < pre.length + ((commandBytes i).map MicroOp.tx ++ data).length + 2 := by
    rw [length_bracket] at hstop
    rw [List.length_append, List.length_map]
    omega
  exact bracketAt_bracket pre _ post s.ip hbody hstart hinside

/-- At every index of a frame of the script, the frame is fetched: its bytes begin with the command part (R60). -/
theorem fetchFrame_frame (hm : s.mode = .run) : fetchFrame s = some i := by
  obtain ⟨data, hframe, -⟩ := frameOf_eq_bracket hi hne s
  have hcommand : commandBytes i = bytes := by rw [commandBytes, hi]
  have hdecode := decodeFrame_append hi (txOperands (data ++ [.csd]))
  rw [fetchFrame, bracketAt_frame hi hne hscript hstart hstop]
  simp only [hframe, bracketBytes_bracket, hcommand, hdecode, hm, and_self, if_true]

end

/-- A frame at its select stands next in the script. -/
theorem frameOf_next_of_frameStarts {i : Instr} {s : State} (h : FrameStarts i s) :
    frameOf i s <+: s.script.drop s.ip := by
  obtain ⟨⟨-, hb, hne⟩, hcsa, -, -⟩ := h
  have hstart : bracketStart s.script s.ip = s.ip :=
    bracketStart_eq le_rfl hcsa fun m hlt hle => absurd hlt (Nat.not_lt.2 hle)
  rw [← hb] at hne ⊢
  simp only [bracketAt, hcsa, hstart] at hne ⊢
  split_ifs at hne ⊢
  · exact uptoCsd_prefix _
  · exact absurd rfl hne

/-- From its select to its release a frame is the one in progress. -/
theorem frameInProgress_of_within {i : Instr} {bytes : List Byte} {s u : State} (hi : encode i = .wire bytes)
    (hne : i ≠ .readStatus1) (h : FrameStarts i s) (hu : Within s (frameOf i s).length u) : FrameInProgress i u := by
  obtain ⟨post, hpost⟩ := frameOf_next_of_frameStarts h
  obtain ⟨⟨-, -, hnonempty⟩, hcsa, -, -⟩ := h
  have hframe : frameOf i u = frameOf i s := frameOf_congr i hu.req hu.n
  have hpre : (s.script.take s.ip).length = s.ip :=
    List.length_take_of_le (List.getElem?_eq_some_iff.1 hcsa).1.le
  have hscript : u.script = s.script.take s.ip ++ frameOf i u ++ post := by
    rw [hu.script, hframe, List.append_assoc, hpost, List.take_append_drop]
  refine ⟨hu.mode, bracketAt_frame hi hne hscript ?_ ?_, hframe ▸ hnonempty⟩
  · rw [hpre]; exact hu.start
  · rw [hpre, hframe]; exact hu.stop

/-- A whole frame, run by its meaning, is its micro-ops played one after the other (log 2). -/
theorem runFrame_play {i : Instr} {bytes : List Byte} {s : State} (hi : encode i = .wire bytes) (hne : i ≠ .readStatus1)
    (h : FrameStarts i s) (hp : ∀ u ∈ frameOf i s, plain (dstCap s) u = true) :
    runFrame (frameOf i s).length i s = .next (play (frameOf i s) s) := by
  have ⟨⟨hm, _⟩, _, _, hl⟩ := h
  exact runFrame_of_microRun ((microRun_play hm hl (frameOf_next_of_frameStarts h) hp).mono
    fun _ => frameInProgress_of_within hi hne h)

/-- A bracket that only transmits. -/
def txBracket (bs : List Byte) : List MicroOp := .csa :: bs.map .tx ++ [.csd]

theorem plain_of_mem_txBracket {bs : List Byte} {u : MicroOp} (d : Nat) (hu : u ∈ txBracket bs) : plain d u = true := by
  simp only [txBracket, List.cons_append, List.mem_cons, List.mem_append, List.mem_map, List.not_mem_nil,
    or_false] at hu
  rcases hu with rfl | ⟨b, -, rfl⟩ | rfl
  · rfl
  · rfl
  · rfl

/-- Played from select high, it is `S`, its bytes and `E`, and nothing else changes but `ip` (R75-R77). -/
theorem play_txBracket (bs : List Byte) {s : State} (hcs : s.csN = true) : play (txBracket bs) s = { s with
    trace := s.trace ++ ([.sel] ++ bs.map .tx ++ [.desel]), ip := s.ip + bs.length + 2 } := by
  rw [txBracket, List.cons_append, play, play_append, play_tx]
  simp [play, play1, driveCs_eq, hcs, advance, Nat.add_right_comm]

/-- Settles O22: the frame is a bracket that transmits 0x06. -/
theorem writeEnableFrameRuns : Obligations.WriteEnableFrameRuns := by
  intro s h
  have hrun := runFrame_play (i := .writeEnable) rfl nofun h fun u => plain_of_mem_txBracket (bs := [0x06]) (dstCap s)
  obtain ⟨-, -, hcs, -⟩ := h
  exact hrun.trans (congrArg Host.Outcome.next (play_txBracket [0x06] hcs))

/-! ### The frame fetched at each index of a script -/

/-- In a script, the one index past the micro-ops before RET is that of RET. -/
theorem ret_of_length_le {us : List MicroOp} {k : Nat} (hk : us.length ≤ k) (hin : k < (us ++ [MicroOp.ret]).length) :
    (us ++ [MicroOp.ret])[k]? = some .ret := by
  rw [List.length_append, List.length_singleton] at hin
  obtain rfl : k = us.length := by omega
  exact List.getElem?_concat_length

section
variable {i : Instr} {bytes : List Byte} {s : State}
variable (hi : encode i = .wire bytes) (hne : i ≠ .readStatus1) (hm : s.mode = .run) (hin : s.ip < s.script.length)
include hi hne hm hin

/-- One frame and RET: the scripts of IDENTIFY and READ (R92, R94). -/
theorem fetchFrame_reading (hscript : s.script = frameOf i s ++ [.ret]) :
    fetchFrame s = if s.ip < (frameOf i s).length then some i else none := by
  split_ifs with hlt
  · exact fetchFrame_frame hi hne (pre := []) hscript (Nat.zero_le _) (by simpa using hlt) hm
  · rw [hscript] at hin
    exact fetchFrame_ret (by rw [hscript]; exact ret_of_length_le (Nat.le_of_not_lt hlt) hin)

/-- Write-enable, one frame, POLL and RET: the scripts of the mutating operations (R84, R96, R100, R101). -/
theorem fetchFrame_mutating (hscript : s.script = writeEnableFrame ++ frameOf i s ++ [.poll, .ret]) :
    fetchFrame s = if s.ip < 3 then some .writeEnable else if s.ip < (frameOf i s).length + 3 then some i
      else if s.ip = (frameOf i s).length + 3 then some .readStatus1 else none := by
  have hlen : (writeEnableFrame ++ frameOf i s).length = (frameOf i s).length + 3 := by
    rw [List.length_append, Nat.add_comm]; rfl
  split_ifs with hwren hframe hpoll
  · have hscript' : s.script = [] ++ frameOf .writeEnable s ++ (frameOf i s ++ [.poll, .ret]) := by
      rw [hscript, List.append_assoc]; rfl
    exact fetchFrame_frame (i := .writeEnable) rfl nofun hscript' (Nat.zero_le _) hwren hm
  · refine fetchFrame_frame hi hne hscript (Nat.le_of_not_lt hwren) ?_ hm
    rw [← List.length_append, hlen]; exact hframe
  · refine fetchFrame_poll hm ?_
    rw [hscript, hpoll, ← hlen]
    simp
  · refine fetchFrame_ret ?_
    have hscript' : s.script = (writeEnableFrame ++ frameOf i s ++ [.poll]) ++ [.ret] := by simp [hscript]
    rw [hscript'] at hin ⊢
    exact ret_of_length_le (by rw [List.length_append, hlen, List.length_singleton]; omega) hin

end

theorem length_readDataFrame (a : Addr) (n : Nat) : (readDataFrame a n).length = n + 6 := by
  have hcommand : (commandBytes (.readData a)).length = 4 := rfl
  rw [readDataFrame, length_bracket, hcommand, List.length_map, List.length_range]
  omega

theorem length_pageProgramFrame (a : Addr) (bs : List Byte) : (pageProgramFrame a bs).length = bs.length + 6 := by
  have hcommand : (commandBytes (.pageProgram a)).length = 4 := rfl
  rw [pageProgramFrame, length_bracket, hcommand, List.length_map]
  omega

theorem capturedSrc_of_req {s : State} {r : Request} (hr : s.req = some r) : capturedSrc s = r.src := by
  rw [capturedSrc, hr]

/-- An accepted PAGE_PROGRAM has the payload its length asks for (R96). -/
theorem length_payload_of_accepted {f : Fields} (ha : accepted { toFields := f, op := 2 } = true) :
    (payload f.src (programLength f)).length = programLength f := by
  have hsrc : programLength f ≤ f.src.length := by
    simpa [accepted, decodeRequest, Instr.wellFormed, Instr.opLegal, Instr.dstSized, Instr.srcLongEnough,
      programLength] using ha
  exact List.length_take_of_le hsrc

/-- Settles O10: a script is one frame and RET, or the write-enable, one frame, POLL and RET. -/
theorem frameFetchedAtEachIndex : Obligations.FrameFetchedAtEachIndex := by
  intro s ⟨f, op⟩ h hm hr
  obtain ⟨⟨r, hr', ha, hn, hs⟩, hin, -, -, -⟩ := h.run hm
  obtain rfl := Option.some_inj.1 (hr'.symm.trans hr)
  refine ⟨?_, ?_, ?_, ?_, ?_⟩ <;> rintro rfl
  · exact fetchFrame_reading (i := .readId) rfl nofun hm hin hs
  · have hscript : s.script = frameOf (.readData f.addr) s ++ [.ret] := by rw [hs, frameOf, hn]; rfl
    have hlen : (frameOf (.readData f.addr) s).length = s.n + 6 := length_readDataFrame ..
    rw [fetchFrame_reading (i := .readData f.addr) rfl nofun hm hin hscript, hlen]
  · have hframe : frameOf (.pageProgram f.addr) s = pageProgramFrame f.addr (payload f.src (programLength f)) := by
      rw [frameOf, capturedSrc_of_req hr, hn]; rfl
    have hscript : s.script = writeEnableFrame ++ frameOf (.pageProgram f.addr) s ++ [.poll, .ret] := by
      rw [hs, hframe]; exact List.append_assoc (writeEnableFrame ++ _) [.poll] [.ret]
    have hlen : (frameOf (.pageProgram f.addr) s).length = s.n + 6 := by
      rw [hframe, length_pageProgramFrame, length_payload_of_accepted ha, hn]; rfl
    rw [fetchFrame_mutating (i := .pageProgram f.addr) rfl nofun hm hin hscript, hlen]
  · exact fetchFrame_mutating (i := .sectorErase f.addr) rfl nofun hm hin hs
  · exact fetchFrame_mutating (i := .chipErase) rfl nofun hm hin hs

/-- Settles O49: the frame fetched is READ_ID, READ_DATA or none, and at a POLL it would be READ_STATUS_1. -/
theorem readRequestsNeverPollNorEnable : Obligations.ReadRequestsNeverPollNorEnable := by
  intro s r h hr hm hop
  obtain ⟨hidentify, hread, -⟩ := frameFetchedAtEachIndex s r h hm hr
  have hfetch : fetchFrame s ≠ some .writeEnable ∧ fetchFrame s ≠ some .readStatus1 := by
    rcases hop with hop | hop
    · rw [hidentify hop]; split_ifs <;> exact ⟨nofun, nofun⟩
    · rw [hread hop]; split_ifs <;> exact ⟨nofun, nofun⟩
  exact ⟨if_neg fun hpoll => hfetch.2 (fetchFrame_poll hm hpoll.2), hfetch⟩

/-! ### Acceptance in IDLE -/

/-- A request that acceptance takes in IDLE is latched, with its length and its script (R105). -/
theorem exec_accepted_idle {i : Instr} {r : Request} {s : State} (hi : encode i = .request r)
    (hfault : acceptanceFault r = none) (hm : s.mode = .idle) :
    exec i s = .next (latch r (lengthOf r) (scriptOf r) s) := by
  rw [exec_of_encode hi, hfault, present_idle_unchecked hm]

/-- Settles O32, operation by operation. -/
theorem mutatingRequestsStartTheirScripts : Obligations.MutatingRequestsStartTheirScripts := by
  intro f s hm
  refine ⟨fun hsrc => ?_, ?_, exec_accepted_idle rfl rfl hm⟩
  · have hfault : acceptanceFault (requestOf 2 f) = none := if_neg (Nat.not_lt.2 hsrc)
    rw [exec_accepted_idle (i := .reqPageProgram f) rfl hfault hm]
    exact congrArg (fun us => Host.Outcome.next (latch (requestOf 2 f) (programLength f) us s)) (pageProgramScript_eq f)
  · exact exec_accepted_idle rfl rfl hm

/-! ### One poll iteration, phase by phase (R86) -/

theorem exchange_live {f : State → Answer} {s : State} (hl : s.transport = .live) : exchange f s = f s := by
  simp only [exchange, hl]

theorem busy_eq (st : Byte) : busy st = st.getLsbD 0 := rfl

section
variable {s : State} (hu : s.script[s.ip]? = some .poll)
include hu

theorem microStep_poll_select (hp : s.pollPhase = .pCsa) (hcs : s.csN = true) :
    microStep s = .next { s with csN := false, trace := s.trace ++ [.sel], pollPhase := .pTx } := by
  simp [microStep, hu, microPoll, hp, driveCs_eq, hcs]

theorem microStep_poll_transmit (hp : s.pollPhase = .pTx) (hl : s.transport = .live) :
    microStep s = .next { s with trace := s.trace ++ [.tx 0x05], pollPhase := .pRx } := by
  simp only [microStep, hu, microPoll, hp]; exact exchange_live hl

theorem microStep_poll_receive (hp : s.pollPhase = .pRx) (hl : s.transport = .live) :
    microStep s = .next { s with
      trace := s.trace ++ [.rx (chipByte s)], st := chipByte s, pollPhase := .pCsd, chip := s.chip.tail } := by
  simp only [microStep, hu, microPoll, hp]; exact exchange_live hl

theorem microStep_poll_decide (hp : s.pollPhase = .pCsd) : microStep s = .next (pollDecide s) := by
  simp only [microStep, hu, microPoll, hp]

end

/-- The end of an iteration that has been selecting: `E`, and then what bit 0 of the status byte and the bound say. -/
theorem pollDecide_selected {s : State} (hcs : s.csN = false) : pollDecide s =
    if s.st.getLsbD 0 = false then
      { s with csN := true, trace := s.trace ++ [.desel], pollPhase := .pCsa, pollCount := 0, ip := s.ip + 1 }
    else if s.pollLimit = some (s.pollCount + 1) then
      cleared { s with csN := true, trace := s.trace ++ [.desel, .done .notResponding none] }
    else
      { s with csN := true, trace := s.trace ++ [.desel], pollPhase := .pCsa, pollCount := s.pollCount + 1 } := by
  rw [pollDecide_eq, busy_eq]
  simp [driveCs_eq, hcs, complete, clearRequest, cleared, emit]

/-- Settles O16, phase by phase. -/
theorem pollRunsOnePhase : Obligations.PollRunsOnePhase := by
  intro s _ hu
  refine ⟨microStep_poll_select hu, fun hp _ => ?_, fun hp _ hl => ?_, fun hp _ htr => ?_, fun hp hcs => ?_⟩
  · split_ifs with hl
    · exact microStep_poll_transmit hu hp hl
    · exact microStep_stalled (.inr (.inr (.inr ⟨hu, .inl hp⟩))) (stalled_of_not_live hl)
  · exact ⟨_, _, microStep_poll_receive hu hp hl, rfl⟩
  · exact microStep_stalled (.inr (.inr (.inr ⟨hu, .inr hp⟩))) htr
  · rw [microStep_poll_decide hu hp, pollDecide_selected hcs]

/-- The end of an iteration reads bit 0 of the status byte alone, and keeps the byte while it stays in RUN. -/
theorem pollDecide_st {s : State} {x y : Byte} (hm : s.mode = .run) (hbit : x.getLsbD 0 = y.getLsbD 0) :
    pollDecide { s with st := y } =
      { pollDecide { s with st := x } with st := if (pollDecide { s with st := x }).mode = .run then y else 0 } := by
  simp only [pollDecide_eq, driveCs_eq, busy_eq, hbit]
  by_cases hready : y.getLsbD 0 = false
  · simp only [if_pos hready, hm, if_true]
  · by_cases hbound : s.pollLimit = some (s.pollCount + 1)
    · simp only [if_neg hready, if_pos hbound]
      rfl
    · simp only [if_neg hready, if_neg hbound, hm, if_true]

/-- Settles O17: the decision at the end of an iteration is on bit 0. -/
theorem busyTestIsBitZeroAlone : Obligations.BusyTestIsBitZeroAlone := by
  intro s x y hm hu hp hbit
  refine ⟨_, microStep_poll_decide (s := { s with st := x }) hu hp, ?_, fun hx => ?_, fun hx hlimit => ?_⟩
  · rw [microStep_poll_decide (s := { s with st := y }) hu hp, pollDecide_st hm hbit]
  · rw [pollDecide_eq, busy_eq, if_pos hx]
    exact ⟨by simpa using hm, rfl⟩
  · rw [pollDecide_eq, busy_eq, if_neg (by simp [hx]), if_neg (by simp [hlimit])]
    exact ⟨by simpa using hm, by simp, rfl⟩

/-! ### Poll iterations -/

/-- At the start of a poll iteration, with select high and a live transport. -/
structure AtPoll (s : State) : Prop where
  mode : s.mode = .run
  poll : s.script[s.ip]? = some .poll
  phase : s.pollPhase = .pCsa
  select : s.csN = true
  live : s.transport = .live

/-- What an iteration that receives `v` leaves (R86, R87, R89). -/
def pollOutcome (v : Byte) (s : State) : State :=
  if v.getLsbD 0 = false then
    { s with
      trace := s.trace ++ [.sel, .tx 0x05, .rx v, .desel], st := v, chip := s.chip.drop 1, pollCount := 0
      ip := s.ip + 1 }
  else if s.pollLimit = some (s.pollCount + 1) then
    cleared { s with
      trace := s.trace ++ [.sel, .tx 0x05, .rx v, .desel, .done .notResponding none], chip := s.chip.drop 1 }
  else
    { s with
      trace := s.trace ++ [.sel, .tx 0x05, .rx v, .desel], st := v, chip := s.chip.drop 1
      pollCount := s.pollCount + 1 }

/-- A received byte is an answer (R34). -/
theorem answers_chipByte {s t : State} (h : t.chip = s.chip) : Answers 1 s [chipByte t] := by
  refine ⟨rfl, fun j v hj hv => ?_⟩
  obtain rfl : j = 0 := by omega
  rw [← h] at hv
  obtain ⟨more, hmore⟩ := List.head?_eq_some_iff.1 (List.head?_eq_getElem? ▸ hv)
  rw [chipByte_of_chip hmore]
  rfl

/-- In an iteration that has selected, the opcode to come (phase P_TX). -/
def statusSelected (s : State) : State :=
  { s with csN := false, trace := s.trace ++ [.sel], pollPhase := .pTx }

/-- In an iteration that has selected and sent its opcode, the status byte to come (phase P_RX). -/
def statusAsked (s : State) : State :=
  { s with csN := false, trace := s.trace ++ [.sel, .tx 0x05], pollPhase := .pRx }

/-- In an iteration that has received `v`, the release to come (phase P_CSD). -/
def statusReceived (v : Byte) (s : State) : State :=
  { s with
    csN := false, trace := s.trace ++ [.sel, .tx 0x05, .rx v], st := v, pollPhase := .pCsd, chip := s.chip.drop 1 }

theorem pollDecide_statusReceived {s : State} (h : AtPoll s) (v : Byte) :
    pollDecide (statusReceived v s) = pollOutcome v s := by
  rw [pollDecide_selected rfl]
  simp [statusReceived, pollOutcome, cleared, h.phase, h.select]

/-- Four micro-ops are one poll iteration. -/
theorem microRun_pollOutcome {s : State} (h : AtPoll s) :
    ∃ v, Answers 1 s [v] ∧ MicroRun (Within s 1) 4 s (pollOutcome v s) := by
  have hm := h.mode
  have hu := h.poll
  have hstop : s.ip < s.ip + 1 := Nat.lt_succ_self s.ip
  have hask : microStep (statusSelected s) = .next (statusAsked s) :=
    (microStep_poll_transmit (s := statusSelected s) hu rfl h.live).trans (by simp [statusSelected, statusAsked])
  have hreceive : microStep (statusAsked s) = .next (statusReceived (chipByte (statusAsked s)) s) :=
    (microStep_poll_receive (s := statusAsked s) hu rfl h.live).trans (by simp [statusAsked, statusReceived])
  refine ⟨chipByte (statusAsked s), answers_chipByte rfl, ?_⟩
  rw [← pollDecide_statusReceived h]
  exact .more ⟨hm, rfl, rfl, rfl, rfl, le_rfl, hstop⟩ (microStep_poll_select hu h.phase h.select)
    (.more ⟨hm, rfl, rfl, rfl, rfl, le_rfl, hstop⟩ hask
      (.more ⟨hm, rfl, rfl, rfl, rfl, le_rfl, hstop⟩ hreceive
        (.more ⟨hm, rfl, rfl, rfl, rfl, le_rfl, hstop⟩ (microStep_poll_decide hu rfl) (.done _))))

theorem frameInProgress_poll {s u : State} (h : AtPoll s) (hu : Within s 1 u) : FrameInProgress .readStatus1 u := by
  have hip : u.ip = s.ip := by have := hu.start; have := hu.stop; omega
  exact ⟨hu.mode, bracketAt_poll (by rw [hu.script, hip, h.poll]), nofun⟩

/-- Settles O28: the row's meaning is the four micro-ops of the iteration. -/
theorem readStatusIterationRuns : Obligations.ReadStatusIterationRuns := by
  intro s hm hu hp hcs hl
  have h : AtPoll s := ⟨hm, hu, hp, hcs, hl⟩
  obtain ⟨v, hv, hrun⟩ := microRun_pollOutcome h
  exact ⟨v, hv, runFrame_of_microRun (hrun.mono fun _ => frameInProgress_poll h)⟩

/-- With an answer lined up and nothing else to move, four steps are the iteration that receives it. -/
theorem runSteps_poll {s : State} {v : Byte} {more : List Byte} (h : AtPoll s) (ha : s.agenda = [])
    (hchip : s.chip = v :: more) : runSteps 4 s = .next (pollOutcome v s) := by
  obtain ⟨w, ⟨-, hw⟩, hrun⟩ := microRun_pollOutcome h
  obtain rfl : w = v := by simpa using hw 0 v (by decide) (by simp [hchip])
  exact runSteps_of_within ha hrun

/-- After the iterations that receive the busy bytes `bs`, the bound not reached (R86). -/
def pollingOn (bs : List Byte) (s : State) : State :=
  { s with
    trace := s.trace ++ pollEvents bs, st := bs.getLast?.getD s.st, chip := s.chip.drop bs.length
    pollCount := s.pollCount + bs.length }

theorem AtPoll.pollingOn {s : State} (h : AtPoll s) (bs : List Byte) : AtPoll (pollingOn bs s) :=
  ⟨h.mode, h.poll, h.phase, h.select, h.live⟩

theorem pollOutcome_busy {v : Byte} {s : State} (hv : v.getLsbD 0 = true) (hl : s.pollLimit ≠ some (s.pollCount + 1)) :
    pollOutcome v s = pollingOn [v] s := by
  simp [pollOutcome, pollingOn, pollEvents, hv, hl]

theorem pollingOn_cons (v : Byte) (bs : List Byte) (s : State) :
    pollingOn bs (pollingOn [v] s) = pollingOn (v :: bs) s := by
  simp [pollingOn, pollEvents, List.getLast?_cons, Nat.add_assoc, Nat.add_comm 1]

/-- A busy chip, below the bound, keeps the engine in its POLL (R87, R89). -/
theorem runSteps_busy {bs more : List Byte} {s : State} (h : AtPoll s) (ha : s.agenda = [])
    (hchip : s.chip = bs ++ more) (hbusy : ∀ b ∈ bs, b.getLsbD 0 = true)
    (hlimit : ∀ l, s.pollLimit = some l → s.pollCount + bs.length < l) :
    runSteps (4 * bs.length) s = .next (pollingOn bs s) := by
  induction bs generalizing s with
  | nil => simp [pollingOn, pollEvents]
  | cons b bs ih =>
    have hnext : s.pollLimit ≠ some (s.pollCount + 1) := fun hl => by
      have := hlimit _ hl
      rw [List.length_cons] at this
      omega
    have hfirst : runSteps 4 s = .next (pollingOn [b] s) := by
      rw [runSteps_poll h ha hchip, pollOutcome_busy (hbusy b List.mem_cons_self) hnext]
    have hrest := ih (s := pollingOn [b] s) (h.pollingOn [b]) ha (by simp [pollingOn, hchip])
      (fun c hc => hbusy c (List.mem_cons_of_mem b hc)) fun l hl => by
        have := hlimit l hl
        rw [List.length_cons] at this
        show s.pollCount + 1 + bs.length < l
        omega
    rw [List.length_cons, Nat.mul_succ, Nat.add_comm, runSteps_add _ hfirst, hrest, pollingOn_cons]

theorem pollEvents_append (bs cs : List Byte) : pollEvents (bs ++ cs) = pollEvents bs ++ pollEvents cs := by
  induction bs with
  | nil => rfl
  | cons b bs ih => simp only [List.cons_append, pollEvents, ih]

/-- With as many busy bytes as the bound leaves iterations, the last of them ends the request (R89). -/
theorem runSteps_bound {bs more : List Byte} {s : State} (h : AtPoll s) (ha : s.agenda = [])
    (hchip : s.chip = bs ++ more) (hbusy : ∀ b ∈ bs, b.getLsbD 0 = true) (hne : bs ≠ [])
    (hlimit : s.pollLimit = some (s.pollCount + bs.length)) :
    runSteps (4 * bs.length) s = .next (cleared { s with
      trace := s.trace ++ (pollEvents bs ++ [.done .notResponding none]), chip := more }) := by
  obtain ⟨init, v, rfl⟩ := (List.eq_nil_or_concat' bs).resolve_left hne
  have hlast : v.getLsbD 0 = true := hbusy v (by simp)
  have hinit : runSteps (4 * init.length) s = .next (pollingOn init s) := by
    refine runSteps_busy (more := v :: more) h ha (by simp [hchip]) (fun b hb => hbusy b (by simp [hb])) fun l hl => ?_
    obtain rfl := Option.some_inj.1 (hl.symm.trans hlimit)
    simp
  have hend : runSteps 4 (pollingOn init s) = .next (pollOutcome v (pollingOn init s)) :=
    runSteps_poll (h.pollingOn init) ha (more := more) (by simp [pollingOn, hchip])
  have hreached : (pollingOn init s).pollLimit = some ((pollingOn init s).pollCount + 1) := by
    simpa [pollingOn, Nat.add_assoc] using hlimit
  rw [List.length_append, List.length_singleton, Nat.mul_succ, runSteps_add 4 hinit, hend, pollOutcome,
    if_neg (by simp [hlast]), if_pos hreached]
  simp [pollingOn, cleared, hchip, pollEvents_append, pollEvents]

/-! ### From a presented request to its POLL (R84, R96, R100, R101) -/

/-- The presented request `r` accepted, its script about to start (R105). -/
def started (r : Request) (s : State) : State := latch r (lengthOf r) (scriptOf r) { s with agenda := [] }

/-- The request `r` accepted and sent: the write-enable and the bracket that transmits `bs` are on the wire, and POLL is
next. -/
def sent (r : Request) (bs : List Byte) (s : State) : State :=
  { started r s with
    ip := bs.length + 5
    trace := s.trace ++ ([.sel, .tx 0x06, .desel] ++ ([.sel] ++ bs.map .tx ++ [.desel])) }

section
variable {r : Request} {bs : List Byte} {s : State}
variable (hrest : AtRest s) (hm : s.mode = .idle) (hl : s.transport = .live) (ha : s.agenda = [.request r])
variable (hfault : acceptanceFault r = none) (hscript : scriptOf r = txBracket [0x06] ++ txBracket bs ++ [.poll, .ret])
include hrest hl hscript

theorem atPoll_sent : AtPoll (sent r bs s) where
  mode := rfl
  poll := by
    change (scriptOf r)[bs.length + 5]? = some .poll
    rw [hscript]
    simp [txBracket]
  phase := hrest.pollPhase
  select := hrest.level
  live := hl

include hm ha hfault

/-- A mutating request from rest comes to its POLL in its acceptance step and the micro-ops of its two brackets. -/
theorem runSteps_sent : runSteps (1 + (bs.length + 5)) s = .next (sent r bs s) := by
  have haccept : step s = .next (started r s) :=
    (step_of_request ha).trans (exec_accepted_idle (s := { s with agenda := [] }) (encode_decodeRequest r) hfault hm)
  have hplay := microRun_play (us := txBracket [0x06] ++ txBracket bs) (s := started r s) rfl hl
    ⟨[.poll, .ret], hscript.symm⟩
    fun u hu => (List.mem_append.1 hu).elim (plain_of_mem_txBracket _) (plain_of_mem_txBracket _)
  have hlen : (txBracket [0x06] ++ txBracket bs).length = bs.length + 5 := by simp [txBracket]
  have hsent : play (txBracket [0x06] ++ txBracket bs) (started r s) = sent r bs s := by
    rw [play_append, play_txBracket [0x06], play_txBracket bs]
    · simp [sent, started, Nat.add_assoc, Nat.add_comm 3]
    · exact hrest.level
    · exact hrest.level
  rw [hsent, hlen] at hplay
  rw [runSteps_add _ (runSteps_one haccept), runSteps_of_within rfl hplay]

end

/-- A request from rest, ended after it was sent, leaves the engine at rest as it was (R79, R89). -/
theorem cleared_sent {s : State} (hrest : AtRest s) (hm : s.mode = .idle) (r : Request) (bs more : List Byte)
    (events : List Event) : cleared { sent r bs s with trace := events, chip := more } =
      { s with agenda := [], chip := more, trace := events } := by
  obtain ⟨-, hreq, hn, hscript, hip, hidBuf, hst, hphase, hcount⟩ := hrest
  simp [cleared, sent, started, hm, hreq, hn, hscript, hip, hidBuf, hst, hphase, hcount]

/-- Settles O57: the request is sent, every iteration but the last is busy below the bound, and the last is at it. -/
theorem boundedPollGivesUp : Obligations.BoundedPollGivesUp := by
  intro s f bs more hrest hm hl ha hchip hbusy hne hlimit
  have hscript : scriptOf (requestOf 4 f) = txBracket [0x06] ++ txBracket [0xC7] ++ [.poll, .ret] := rfl
  have hlimit' : (sent (requestOf 4 f) [0xC7] s).pollLimit = some (s.pollCount + bs.length) := by
    rw [hrest.pollCount, Nat.zero_add]; exact hlimit
  have hsent := runSteps_sent hrest hm hl ha rfl hscript
  have hpolls := runSteps_bound (atPoll_sent hrest hl hscript) rfl hchip hbusy hne hlimit'
  rw [cleared_sent hrest hm] at hpolls
  rw [← Nat.add_assoc]
  refine (runSteps_add _ hsent).trans (hpolls.trans ?_)
  simp [sent]

end Sys2Proof.Machine

/-! ## The read operations: IDENTIFY and READ

What a bracket with a data phase leaves, byte by byte (R92, R94); their whole frames; a request that is one frame and RET,
run from rest to its DONE; the identifier (R93); and the shape of all five scripts. -/

namespace Sys2Proof.Machine
open Sys2Proof Sys2Proof.Claims

/-! ### The identifier -/

/-- Settles O7, place by place: the three bytes joined are the identifier. -/
theorem identifierIsTheThreeBytesInOrder : Obligations.IdentifierIsTheThreeBytesInOrder := by
  rintro ⟨b0, b1, b2⟩
  obtain ⟨hhigh, hmid, hlow⟩ := extractLsb_joinBytes b0 b1 b2
  have hvalue := joinBytes_toNat b0 b1 b2
  refine ⟨rfl, hhigh, hmid, hlow, hvalue, hhigh, ?_⟩
  change ((joinBytes b0 b1 b2).extractLsb' 0 16).toNat = b1.toNat * 256 + b2.toNat
  have := b1.isLt
  have := b2.isLt
  rw [BitVec.extractLsb'_toNat, hvalue, Nat.shiftRight_zero]
  omega

/-! ### The shape of the scripts -/

/-- Settles O31: the two scripts written out. -/
theorem readRequestsStartTheirScripts : Obligations.ReadRequestsStartTheirScripts := by
  intro f s hm
  refine ⟨exec_accepted_idle rfl rfl hm, fun hcap => ?_⟩
  have hfault : acceptanceFault (requestOf 1 f) = none := if_neg (Nat.not_lt.2 hcap)
  rw [exec_accepted_idle (i := .reqRead f) rfl hfault hm]
  exact congrArg (fun us => Host.Outcome.next (latch (requestOf 1 f) f.len.toNat us s)) (readScript_eq f)

theorem poll_not_mem_txBracket (bs : List Byte) : MicroOp.poll ∉ txBracket bs :=
  fun h => Bool.false_ne_true (plain_of_mem_txBracket 0 h)

/-- The one POLL of a script that ends with POLL and RET. -/
theorem getElem?_eq_poll_iff {us : List MicroOp} (h : .poll ∉ us) (k : Nat) :
    (us ++ [.poll, .ret])[k]? = some .poll ↔ k = us.length := by
  induction us generalizing k with
  | nil =>
    match k with
    | 0 | 1 | _ + 2 => simp
  | cons u us ih =>
    obtain ⟨hu, hus⟩ := not_or.1 (mt List.mem_cons.2 h)
    cases k with
    | zero => simp [Ne.symm hu]
    | succ k => simpa using ih hus k

/-- A mutating operation's script, whose second bracket transmits `bs` (R96, R100, R101): its size, and POLL only right after
that bracket. -/
theorem mutating_size_and_poll {us : List MicroOp} {bs : List Byte}
    (h : us = txBracket [0x06] ++ txBracket bs ++ [.poll, .ret]) :
    us.length = bs.length + 7 ∧ ∀ k, us[k]? = some .poll ↔ k = bs.length + 5 := by
  have hlen : (txBracket [0x06] ++ txBracket bs).length = bs.length + 5 := by simp [txBracket]
  have hpoll : .poll ∉ txBracket [0x06] ++ txBracket bs := fun hmem =>
    (List.mem_append.1 hmem).elim (poll_not_mem_txBracket _) (poll_not_mem_txBracket _)
  subst h
  exact ⟨by rw [List.length_append, hlen]; rfl, hlen ▸ getElem?_eq_poll_iff hpoll⟩

/-- Settles O50: the script of READ is one frame and RET, and the mutating ones have one shape. -/
theorem scriptSizesAndPollIndex : Obligations.ScriptSizesAndPollIndex := by
  intro f
  have herase := mutating_size_and_poll (us := scriptOf (requestOf 3 f)) (bs := opSectorErase :: addrBytes f.addr) rfl
  have hchip := mutating_size_and_poll (us := scriptOf (requestOf 4 f)) (bs := [0xC7]) rfl
  refine ⟨rfl, ?_, fun hsrc => ?_, herase.1, herase.2, hchip.1, hchip.2, fun op ha => ?_⟩
  · change (readDataFrame f.addr f.len.toNat ++ [MicroOp.ret]).length = _
    rw [List.length_append, length_readDataFrame]
    rfl
  · have hscript : scriptOf (requestOf 2 f) = txBracket [0x06] ++
        txBracket (opPageProgram :: addrBytes f.addr ++ payload f.src (programLength f)) ++ [.poll, .ret] :=
      (pageProgramScript_eq f).trans (by simp [txBracket, addrBytes, opWriteEnable])
    have hpayload : (payload f.src (programLength f)).length = min f.len.toNat 256 := List.length_take_of_le hsrc
    have hlen : (opPageProgram :: addrBytes f.addr ++ payload f.src (programLength f)).length =
        min f.len.toNat 256 + 4 := by rw [List.length_append, hpayload, Nat.add_comm]; rfl
    have hprogram := mutating_size_and_poll hscript
    rwa [hlen] at hprogram
  · obtain ⟨us, hus⟩ := scriptOf_last ha
    rw [hus, List.getLast?_concat]

/-! ### The bytes the chip gives -/

theorem answers_nil (s : State) : Answers 0 s [] := ⟨rfl, nofun⟩

/-- A received byte, and then bytes the chip may give from there on (R34). -/
theorem answers_cons {k : Nat} {s t : State} {vs : List Byte} (ht : t.chip = s.chip.tail) (h : Answers k t vs) :
    Answers (k + 1) s (chipByte s :: vs) := by
  obtain ⟨hlen, hvs⟩ := h
  refine ⟨by rw [List.length_cons, hlen], fun j v hj hv => ?_⟩
  cases j with
  | zero => exact (answers_chipByte rfl).2 0 v Nat.one_pos hv
  | succ j =>
    rw [List.getElem?_cons_succ]
    refine hvs j v (Nat.lt_of_succ_lt_succ hj) ?_
    rwa [ht, List.getElem?_tail]

/-- What the chip may give depends on the answers lined up alone. -/
theorem answers_congr {k : Nat} {s t : State} {vs : List Byte} (ht : t.chip = s.chip) (h : Answers k t vs) :
    Answers k s vs := by
  rwa [Answers, ht] at h

/-- Where answers are lined up for all of the bytes, the chip gives those. -/
theorem answers_lined_up {k : Nat} {s : State} {vs ws more : List Byte} (h : Answers k s ws) (hchip : s.chip = vs ++ more)
    (hlen : vs.length = k) : ws = vs := by
  obtain ⟨hws, hfirst⟩ := h
  refine List.ext_getElem (hws.trans hlen.symm) fun j hj hj' => ?_
  have hv : s.chip[j]? = some vs[j] := by rw [hchip, List.getElem?_append_left hj', List.getElem?_eq_getElem hj']
  exact Option.some_inj.1 ((List.getElem?_eq_getElem hj).symm.trans (hfirst j _ (hlen ▸ hj') hv))

/-! ### A data phase that receives -/

/-- The memory after the bytes `vs` were written from address `a` on. -/
def storeBytes (m : Memory) (a : Nat) : List Byte → Memory
  | [] => m
  | v :: vs => storeBytes (memWrite m a v) (a + 1) vs

/-- Inside the range a read gives the byte written there, outside it the byte before (R37). -/
theorem memRead_storeBytes (m : Memory) (a : Nat) (vs : List Byte) (x : Nat) :
    memRead (storeBytes m a vs) x = if a ≤ x ∧ x < a + vs.length then vs[x - a]? else memRead m x := by
  induction vs generalizing m a with
  | nil => rw [storeBytes, if_neg (by simp)]
  | cons v vs ih =>
    rw [storeBytes, ih, memRead_memWrite, List.length_cons]
    rcases Nat.lt_trichotomy x a with hlt | rfl | hgt
    · rw [if_neg (by omega), if_neg (by omega), if_neg (by omega)]
    · rw [if_neg (by omega), if_pos rfl, if_pos (by omega), Nat.sub_self]
      rfl
    · have hsub : x - a = x - (a + 1) + 1 := by omega
      rw [if_neg (by omega : x ≠ a), hsub, List.getElem?_cons_succ]
      exact if_congr (by omega) rfl rfl

theorem memRead_storeBytes_inside (m : Memory) (a : Nat) {vs : List Byte} {i : Nat} (hi : i < vs.length) :
    memRead (storeBytes m a vs) (a + i) = vs[i]? := by
  rw [memRead_storeBytes, if_pos (by omega), Nat.add_sub_cancel_left]

theorem memRead_storeBytes_outside (m : Memory) {a : Nat} {vs : List Byte} {x : Nat}
    (hx : ∀ i, i < vs.length → x ≠ a + i) : memRead (storeBytes m a vs) x = memRead m x := by
  refine (memRead_storeBytes m a vs x).trans (if_neg fun hin => ?_)
  exact hx (x - a) (by omega) (by omega)

/-- The offsets of a buffer lie one after the other (R37). -/
theorem dstAddr_add (s : State) (i j : Nat) : dstAddr s (i + j) = dstAddr s i + j := by
  unfold dstAddr
  cases s.req with
  | none => rfl
  | some r => exact (Nat.add_assoc ..).symm

/-- After the bytes `vs` were received into the destination offsets from `i` on (R78, R94). -/
def bytesReceived (i : Nat) (vs : List Byte) (s : State) : State :=
  { s with
    trace := s.trace ++ readEvents i vs, chip := s.chip.drop vs.length, ip := s.ip + vs.length
    dst := storeBytes s.dst (dstAddr s i) vs }

theorem play1_rxd (i : Nat) (s : State) : play1 (.rxd i) s = { s with
    trace := s.trace ++ [.rx (chipByte s), .dw i (chipByte s)], chip := s.chip.tail, ip := s.ip + 1
    dst := memWrite s.dst (dstAddr s i) (chipByte s) } := by
  simp [play1, advance, writeDst, emit]

theorem bytesReceived_cons (i : Nat) (vs : List Byte) (s : State) :
    bytesReceived (i + 1) vs (play1 (.rxd i) s) = bytesReceived i (chipByte s :: vs) s := by
  have haddr : dstAddr (play1 (.rxd i) s) (i + 1) = dstAddr s i + 1 := dstAddr_add s i 1
  rw [bytesReceived, haddr, play1_rxd]
  simp [bytesReceived, readEvents, storeBytes, Nat.add_assoc, Nat.add_comm 1]

/-- `k` RXD micro-ops in a row receive `k` bytes into consecutive offsets. -/
theorem play_rxd (i k : Nat) (s : State) :
    ∃ vs, Answers k s vs ∧ play ((List.range' i k).map .rxd) s = bytesReceived i vs s := by
  induction k generalizing i s with
  | zero => exact ⟨[], answers_nil s, by simp [play, bytesReceived, readEvents, storeBytes]⟩
  | succ k ih =>
    obtain ⟨vs, hvs, hplay⟩ := ih (i + 1) (play1 (.rxd i) s)
    refine ⟨chipByte s :: vs, answers_cons rfl hvs, ?_⟩
    rw [List.range'_succ, List.map_cons, play, hplay, bytesReceived_cons]

/-- The three RXI micro-ops receive `id_buf`, in order (R21, R92). -/
theorem play_rxi (s : State) : ∃ v0 v1 v2, Answers 3 s [v0, v1, v2] ∧ play [.rxi 0, .rxi 1, .rxi 2] s =
    { s with
      trace := s.trace ++ [.rx v0, .rx v1, .rx v2], idBuf := ⟨v0, v1, v2⟩, chip := s.chip.drop 3, ip := s.ip + 3 } := by
  refine ⟨_, _, _, answers_cons (t := play1 (.rxi 0) s) rfl (answers_cons (t := play1 (.rxi 1) (play1 (.rxi 0) s)) rfl
    (answers_cons (t := play1 (.rxi 2) (play1 (.rxi 1) (play1 (.rxi 0) s))) rfl (answers_nil _))), ?_⟩
  simp [play, play1, advance, receive, emit, IdBuf.put, ← List.drop_one]

/-! ### Brackets with a data phase -/

theorem plain_of_mem_bracket {i : Instr} {data : List MicroOp} {d : Nat} (hdata : ∀ u ∈ data, plain d u = true) :
    ∀ u ∈ bracket i data, plain d u = true := by
  intro u hu
  simp only [bracket, List.cons_append, List.mem_cons, List.mem_append, List.mem_map, List.not_mem_nil, or_false] at hu
  rcases hu with rfl | (⟨b, -, rfl⟩ | hu) | rfl
  · rfl
  · rfl
  · exact hdata u hu
  · rfl

theorem plain_of_mem_readIdFrame (d : Nat) : ∀ u ∈ readIdFrame, plain d u = true :=
  plain_of_mem_bracket (by simp [plain])

theorem plain_of_mem_readDataFrame (a : Addr) {n d : Nat} (h : n ≤ d) : ∀ u ∈ readDataFrame a n, plain d u = true := by
  refine plain_of_mem_bracket fun u hu => ?_
  obtain ⟨i, hi, rfl⟩ := List.mem_map.1 hu
  exact decide_eq_true ((List.mem_range.1 hi).trans_le h)

/-- The frame `i` selected and its command part on the wire, its data phase to come. -/
def commandSent (i : Instr) (s : State) : State :=
  { s with
    csN := false, trace := s.trace ++ .sel :: (commandBytes i).map .tx, ip := s.ip + ((commandBytes i).length + 1) }

/-- A bracket is its select and command part, its data phase and its release (R69). -/
theorem play_bracket (i : Instr) (data : List MicroOp) {s : State} (hcs : s.csN = true) :
    play (bracket i data) s = play1 .csd (play data (commandSent i s)) := by
  have hcommand : play (.csa :: (commandBytes i).map .tx) s = commandSent i s := by
    rw [play, play_tx]
    simp [play1, driveCs_eq, hcs, advance, commandSent, Nat.add_assoc, Nat.add_comm 1]
  rw [bracket, play_append, play_append, hcommand]
  rfl

/-- After the frame of READ_ID received `v0`, `v1`, `v2` (R92). -/
def idRead (v0 v1 v2 : Byte) (s : State) : State :=
  { s with
    trace := s.trace ++ [.sel, .tx 0x9F, .rx v0, .rx v1, .rx v2, .desel]
    idBuf := ⟨v0, v1, v2⟩, chip := s.chip.drop 3, ip := s.ip + 6 }

theorem play_readIdFrame {s : State} (hcs : s.csN = true) :
    ∃ v0 v1 v2, Answers 3 s [v0, v1, v2] ∧ play readIdFrame s = idRead v0 v1 v2 s := by
  obtain ⟨v0, v1, v2, hvs, hplay⟩ := play_rxi (commandSent .readId s)
  refine ⟨v0, v1, v2, answers_congr rfl hvs, ?_⟩
  rw [readIdFrame, play_bracket _ _ hcs, hplay]
  simp [play1, driveCs_eq, hcs, advance, commandSent, commandBytes, encode, opReadId, idRead]

/-- After the frame of READ_DATA at `a` received `vs` (R94). -/
def dataRead (a : Addr) (vs : List Byte) (s : State) : State :=
  { s with
    trace := s.trace ++ ([.sel, .tx 0x03] ++ addrEvents a ++ readEvents 0 vs ++ [.desel])
    chip := s.chip.drop vs.length, ip := s.ip + vs.length + 6, dst := storeBytes s.dst (dstAddr s 0) vs }

theorem play_readDataFrame (a : Addr) (n : Nat) {s : State} (hcs : s.csN = true) :
    ∃ vs, Answers n s vs ∧ play (readDataFrame a n) s = dataRead a vs s := by
  obtain ⟨vs, hvs, hplay⟩ := play_rxd 0 n (commandSent (.readData a) s)
  refine ⟨vs, answers_congr rfl hvs, ?_⟩
  have haddr : dstAddr (commandSent (.readData a) s) 0 = dstAddr s 0 := rfl
  rw [readDataFrame, List.range_eq_range', play_bracket _ _ hcs, hplay, bytesReceived, haddr]
  simp [play1, driveCs_eq, hcs, advance, commandSent, commandBytes, encode, addrBytes, opReadData, addrEvents, dataRead]
  omega

/-- Settles O25: the row's meaning is its bracket played. -/
theorem readIdFrameRuns : Obligations.ReadIdFrameRuns := by
  intro s h
  have hrun := runFrame_play (i := .readId) rfl nofun h (plain_of_mem_readIdFrame _)
  obtain ⟨-, -, hcs, -⟩ := h
  obtain ⟨v0, v1, v2, hvs, hplay⟩ := play_readIdFrame hcs
  exact ⟨v0, v1, v2, hvs, hrun.trans (congrArg Host.Outcome.next hplay)⟩

/-- Settles O26: the row's meaning is its bracket played, and the bytes stored are read back offset by offset. -/
theorem readDataFrameRuns : Obligations.ReadDataFrameRuns := by
  intro s a h hcap
  have hrun := runFrame_play (i := .readData a) rfl nofun h (plain_of_mem_readDataFrame a hcap)
  obtain ⟨-, -, hcs, -⟩ := h
  obtain ⟨vs, hvs, hplay⟩ := play_readDataFrame a s.n hcs
  have hlen : vs.length = s.n := hvs.1
  have haddr (i : Nat) : dstAddr s i = dstAddr s 0 + i := by rw [← dstAddr_add, Nat.zero_add]
  have hframe : (frameOf (.readData a) s).length = s.n + 6 := length_readDataFrame a s.n
  rw [hframe] at hrun
  refine ⟨vs, dataRead a vs s, hvs, hrun.trans (congrArg Host.Outcome.next hplay), ?_, fun i hi => ?_, fun x hx => ?_⟩
  · rw [dataRead, hlen]
  · rw [haddr i]
    exact memRead_storeBytes_inside _ _ (hlen ▸ hi)
  · exact memRead_storeBytes_outside _ fun i hi => haddr i ▸ hx i (hlen ▸ hi)

/-! ### A request that is one frame and RET -/

/-- Micro-ops of brackets go on in the script, one index each. -/
theorem play_keeps {us : List MicroOp} {d : Nat} (hp : ∀ u ∈ us, plain d u = true) (s : State) :
    (play us s).mode = s.mode ∧ (play us s).script = s.script ∧ (play us s).agenda = s.agenda ∧
      (play us s).ip = s.ip + us.length := by
  induction us generalizing s with
  | nil => exact ⟨rfl, rfl, rfl, rfl⟩
  | cons u us ih =>
    obtain ⟨kmode, kscript, -, -, -, kagenda, kip⟩ := play1_keeps (hp u List.mem_cons_self) s
    obtain ⟨hmode, hscript, hagenda, hip⟩ := ih (fun v hv => hp v (List.mem_cons_of_mem u hv)) (play1 u s)
    refine ⟨hmode.trans kmode, hscript.trans kscript, hagenda.trans kagenda, ?_⟩
    rw [play, hip, kip, List.length_cons]
    omega

/-- A request from rest whose script is `frame` and RET: its acceptance step, the micro-ops of the frame, and the end of the
request (R79, R92, R94). -/
theorem runSteps_frame_ret {r : Request} {s : State} {frame : List MicroOp} (hm : s.mode = .idle)
    (hl : s.transport = .live) (ha : s.agenda = [.request r]) (hfault : acceptanceFault r = none)
    (hscript : scriptOf r = frame ++ [.ret]) (hp : ∀ u ∈ frame, plain r.dstCap u = true) :
    runSteps (frame.length + 2) s =
      .next (complete .ok (responseId (play frame (started r s))) (play frame (started r s))) := by
  have haccept : step s = .next (started r s) :=
    (step_of_request ha).trans (exec_accepted_idle (s := { s with agenda := [] }) (encode_decodeRequest r) hfault hm)
  have hplay := microRun_play (us := frame) (s := started r s) rfl hl ⟨[.ret], hscript.symm⟩ hp
  obtain ⟨kmode, kscript, kagenda, kip⟩ := play_keeps hp (started r s)
  have hu : (play frame (started r s)).script[(play frame (started r s)).ip]? = some .ret := by
    have hstart : (started r s).script = scriptOf r ∧ (started r s).ip = 0 := ⟨rfl, rfl⟩
    rw [kscript, kip, hstart.1, hstart.2, hscript, Nat.zero_add, List.getElem?_concat_length]
  have hret : step (play frame (started r s)) =
      .next (complete .ok (responseId (play frame (started r s))) (play frame (started r s))) := by
    rw [step_of_nil kagenda, engineTurn_run kmode]
    simp only [microStep, hu, microRet]
  rw [runSteps_next _ haccept, runSteps_add 1 (runSteps_of_within rfl hplay), runSteps_one hret]

/-- Its end leaves the engine at rest again: what stays is the trace, the answers used up and the host's memory (R26). -/
theorem complete_started {s : State} (hrest : AtRest s) (hm : s.mode = .idle) (r : Request) (id : Option Ident)
    (events : List Event) (buf : IdBuf) (chip : List Byte) (mem : Memory) (k : Nat) :
    complete .ok id { started r s with trace := events, idBuf := buf, chip := chip, dst := mem, ip := k } =
      { s with agenda := [], trace := events ++ [.done .ok id], chip := chip, dst := mem } := by
  obtain ⟨-, hreq, hn, hscript, hip, hidBuf, hst, hphase, hcount⟩ := hrest
  simp [complete, clearRequest, emit, started, hm, hreq, hn, hscript, hip, hidBuf, hst, hphase, hcount]

/-- Settles O51: the request is the frame of READ_ID and RET, which answers with the identifier. -/
theorem identifyRequestRuns : Obligations.IdentifyRequestRuns := by
  intro s f hrest hm hl ha
  have hrun := runSteps_frame_ret hm hl ha rfl rfl (plain_of_mem_readIdFrame _)
  obtain ⟨v0, v1, v2, hvs, hplay⟩ := play_readIdFrame (s := started (requestOf 0 f) s) hrest.level
  rw [hplay] at hrun
  refine ⟨v0, v1, v2, answers_congr rfl hvs, hrun.trans (congrArg Host.Outcome.next ?_)⟩
  refine (complete_started hrest hm ..).trans ?_
  rw [List.append_assoc]
  rfl

/-! ### READ -/

/-- After a READ with the fields `f` that received `vs` (R94, R79). -/
def readDone (f : Fields) (vs : List Byte) (s : State) : State :=
  { s with
    agenda := [], chip := s.chip.drop vs.length, dst := storeBytes s.dst f.dstBase vs
    trace := s.trace ++ ([.sel, .tx 0x03] ++ addrEvents f.addr ++ readEvents 0 vs ++ [.desel, .done .ok none]) }

/-- A READ from rest is the frame of READ_DATA and RET. -/
theorem runSteps_read {s : State} {f : Fields} (hrest : AtRest s) (hm : s.mode = .idle) (hl : s.transport = .live)
    (ha : s.agenda = [.request (requestOf 1 f)]) (hcap : f.len.toNat ≤ f.dstCap) :
    ∃ vs, Answers f.len.toNat s vs ∧ runSteps (f.len.toNat + 8) s = .next (readDone f vs s) := by
  have hfault : acceptanceFault (requestOf 1 f) = none := if_neg (Nat.not_lt.2 hcap)
  have hrun := runSteps_frame_ret (frame := readDataFrame f.addr f.len.toNat) hm hl ha hfault rfl
    (plain_of_mem_readDataFrame f.addr hcap)
  obtain ⟨vs, hvs, hplay⟩ := play_readDataFrame f.addr f.len.toNat (s := started (requestOf 1 f) s) hrest.level
  have hid : responseId (dataRead f.addr vs (started (requestOf 1 f) s)) = none := rfl
  rw [hplay, hid, length_readDataFrame] at hrun
  refine ⟨vs, answers_congr rfl hvs, hrun.trans (congrArg Host.Outcome.next ?_)⟩
  refine (complete_started hrest hm ..).trans ?_
  simp [readDone, started, dstAddr, requestOf]

/-- The program of one READ gives its trace and its one buffer (R131). -/
theorem runResult_read {s t : State} {f : Fields} (ha : s.agenda = [.request (requestOf 1 f)]) :
    runResult s t = { trace := t.trace, destinations := [destinationOf (requestOf 1 f) t] } := by
  rw [runResult, toPresent, ha]
  rfl

/-- Settles O52: the bytes received are those of the buffer, and the end is the state of rest. -/
theorem readRequestRuns : Obligations.ReadRequestRuns := by
  intro s f hrest hm hl ha hcap
  obtain ⟨vs, hvs, hrun⟩ := runSteps_read hrest hm hl ha hcap
  have hlen : vs.length = f.len.toNat := hvs.1
  have hinside : ∀ i, i < f.len.toNat → memRead (readDone f vs s).dst (f.dstBase + i) = vs[i]? :=
    fun i hi => memRead_storeBytes_inside s.dst f.dstBase (hlen ▸ hi)
  have houtside : ∀ a, (∀ i, i < f.len.toNat → a ≠ f.dstBase + i) →
      memRead (readDone f vs s).dst a = memRead s.dst a :=
    fun a h => memRead_storeBytes_outside s.dst fun i hi => h i (hlen ▸ hi)
  refine ⟨vs, readDone f vs s, hvs, hrun, by rw [readDone, hlen], hinside, houtside, fun hfault => ?_⟩
  refine ⟨⟨hrun, rfl, hm, hrest.level, hfault⟩, ?_⟩
  have hbuffer : destinationOf (requestOf 1 f) (readDone f vs s) = (List.range f.dstCap).map fun i =>
      if i < f.len.toNat then vs[i]? else memRead s.dst (f.dstBase + i) := by
    refine List.map_congr_left fun i _ => ?_
    change memRead (readDone f vs s).dst (f.dstBase + i) = _
    split_ifs with hi
    · exact hinside i hi
    · exact houtside _ fun j hj => by omega
  rw [runResult_read ha, hbuffer]

/-- Settles O53: the bytes read back are the answers lined up, which the premise says are the chip's. -/
theorem readDeliversTheFlashBytes : Obligations.ReadDeliversTheFlashBytes := by
  intro flash s f vs more hrest hm hl ha hcap hchip hlen hflash
  obtain ⟨ws, t, hws, hrun, -, hinside, -⟩ := readRequestRuns s f hrest hm hl ha hcap
  obtain rfl := answers_lined_up hws hchip hlen
  refine ⟨t, hrun, fun i hi hin => ?_⟩
  have hbyte : ws[i]? = some ws[i] := List.getElem?_eq_getElem (hlen ▸ hi)
  rw [hinside i hi, hbyte, hflash i _ hbyte hin]

end Sys2Proof.Machine

/-! ## The mutating operations: PAGE_PROGRAM, SECTOR_ERASE and CHIP_ERASE

Their whole frames, which transmit alone (R96, R100, R101); a mutating request run from rest to its DONE once the chip is
ready (R85, R102); and the payload cut at 256 bytes (R97). -/

namespace Sys2Proof.Machine
open Sys2Proof Sys2Proof.Claims

/-! ### Whole frames -/

/-- A whole frame that is a bracket of the bytes `bs` puts `S`, these bytes and `E` on the wire, and changes nothing else but
`ip` (R69). -/
theorem runFrame_txBracket {i : Instr} {bytes bs : List Byte} {s : State} (hi : encode i = .wire bytes)
    (hne : i ≠ .readStatus1) (h : FrameStarts i s) (hframe : frameOf i s = txBracket bs) :
    runFrame (bs.length + 2) i s = .next { s with
      trace := s.trace ++ ([.sel] ++ bs.map .tx ++ [.desel]), ip := s.ip + bs.length + 2 } := by
  have hrun := runFrame_play hi hne h fun u hu => plain_of_mem_txBracket (dstCap s) (hframe ▸ hu)
  have hlen : (txBracket bs).length = bs.length + 2 := by simp [txBracket]
  obtain ⟨-, -, hcs, -⟩ := h
  rwa [hframe, play_txBracket bs hcs, hlen] at hrun

/-- Settles O23: the frame is a bracket that transmits 0xC7. -/
theorem chipEraseFrameRuns : Obligations.ChipEraseFrameRuns :=
  fun _ h => runFrame_txBracket (bs := [0xC7]) rfl nofun h rfl

/-- Settles O24: the frame is a bracket that transmits the opcode and the address. -/
theorem sectorEraseFrameRuns : Obligations.SectorEraseFrameRuns :=
  fun _ a h => runFrame_txBracket (bs := 0x20 :: addrBytes a) rfl nofun h rfl

/-- The bytes of PAGE_PROGRAM's one bracket: opcode, address, data (R96). -/
def programBytes (a : Addr) (data : List Byte) : List Byte := 0x02 :: addrBytes a ++ data

theorem length_programBytes (a : Addr) (data : List Byte) : (programBytes a data).length = data.length + 4 := by
  rw [programBytes, List.length_append, Nat.add_comm]
  rfl

theorem pageProgramFrame_eq_txBracket (a : Addr) (data : List Byte) :
    pageProgramFrame a data = txBracket (programBytes a data) := by
  rw [txBracket, programBytes, List.map_append]
  rfl

theorem programBytes_events (a : Addr) (data : List Byte) :
    [Event.sel] ++ (programBytes a data).map .tx ++ [.desel] =
      [.sel, .tx 0x02] ++ addrEvents a ++ data.map .tx ++ [.desel] := by
  rw [programBytes, List.map_append]
  rfl

/-- Settles O27: the frame is a bracket that transmits the opcode, the address and the first `n` payload bytes. -/
theorem pageProgramFrameRuns : Obligations.PageProgramFrameRuns := by
  intro s a r h hr hn
  have hframe : frameOf (.pageProgram a) s = txBracket (programBytes a (r.src.take s.n)) := by
    rw [frameOf, capturedSrc_of_req hr, pageProgramFrame_eq_txBracket, payload]
  have hlen : (programBytes a (r.src.take s.n)).length = s.n + 4 := by
    rw [length_programBytes, List.length_take_of_le hn]
  have hrun := runFrame_txBracket (i := .pageProgram a) rfl nofun h hframe
  rwa [programBytes_events, hlen] at hrun

/-! ### The payload (R97) -/

/-- Two payloads that agree on the bytes a PAGE_PROGRAM sends give one script. -/
theorem pageProgramScript_congr {f g : Fields} (haddr : f.addr = g.addr)
    (hsrc : payload f.src (programLength f) = payload g.src (programLength g)) :
    pageProgramScript f = pageProgramScript g := by
  rw [pageProgramScript, pageProgramScript, haddr, hsrc]

theorem acceptanceFault_pageProgram {f : Fields} (h : programLength f ≤ f.src.length) :
    acceptanceFault (requestOf 2 f) = none := if_neg (Nat.not_lt.2 h)

/-- Settles O35: acceptance and the script read the payload through its first `min(len, 256)` bytes alone. -/
theorem payloadIsTruncatedAt256 : Obligations.PayloadIsTruncatedAt256 := by
  intro f g haddr hlen htake hsrc
  have hn : min f.len.toNat 256 = programLength g := by rw [hlen]; rfl
  have hsrc' : programLength g ≤ g.src.length := by
    have hcut := congrArg List.length htake
    rw [List.length_take_of_le hsrc, List.length_take] at hcut
    omega
  have hpayload : payload f.src (programLength f) = payload g.src (programLength g) := hn ▸ htake
  obtain ⟨-, -, hprogram, -⟩ := scriptSizesAndPollIndex f
  exact ⟨rfl, hn.symm, pageProgramScript_congr haddr hpayload,
    accepted_of_acceptanceFault (acceptanceFault_pageProgram hsrc),
    accepted_of_acceptanceFault (acceptanceFault_pageProgram hsrc'), (hprogram hsrc).1⟩

/-! ### From a presented request to its DONE (R85, R102) -/

/-- After a POLL that received the busy bytes `bs` and then `v`, which is not busy, with the answers `more` left (R86,
R87). -/
def pollReady (bs : List Byte) (v : Byte) (more : List Byte) (s : State) : State :=
  { s with
    trace := s.trace ++ pollEvents (bs ++ [v]), st := v, chip := more, pollCount := 0
    ip := s.ip + 1 }

/-- A POLL ends with the first status byte that is not busy, if the bound has not ended it before (R87, R89). -/
theorem runSteps_ready {bs more : List Byte} {v : Byte} {s : State} (h : AtPoll s) (ha : s.agenda = [])
    (hchip : s.chip = bs ++ v :: more) (hbusy : ∀ b ∈ bs, b.getLsbD 0 = true) (hv : v.getLsbD 0 = false)
    (hlimit : ∀ l, s.pollLimit = some l → s.pollCount + bs.length < l) :
    runSteps (4 * (bs.length + 1)) s = .next (pollReady bs v more s) := by
  have hlast : runSteps 4 (pollingOn bs s) = .next (pollOutcome v (pollingOn bs s)) :=
    runSteps_poll (h.pollingOn bs) ha (more := more) (by simp [pollingOn, hchip])
  rw [Nat.mul_succ, runSteps_add 4 (runSteps_busy h ha hchip hbusy hlimit), hlast, pollOutcome, if_pos hv]
  simp [pollingOn, pollReady, hchip, pollEvents_append, pollEvents]

theorem step_ret {s : State} (hm : s.mode = .run) (ha : s.agenda = []) (hu : s.script[s.ip]? = some .ret) :
    step s = .next (complete .ok (responseId s) s) := by
  rw [step_of_nil ha, engineTurn_run hm]
  simp only [microStep, hu, microRet]

/-- A mutating request whose second bracket transmits `bs`, from rest, with the busy status bytes `ps` and then one that is
not busy: it is sent, polled until ready, and ended. -/
theorem runSteps_mutating {r : Request} {bs ps more : List Byte} {v : Byte} {s : State} (hrest : AtRest s)
    (hm : s.mode = .idle) (hl : s.transport = .live) (ha : s.agenda = [.request r]) (hop : r.op ≠ 0)
    (hfault : acceptanceFault r = none) (hscript : scriptOf r = txBracket [0x06] ++ txBracket bs ++ [.poll, .ret])
    (hchip : s.chip = ps ++ v :: more) (hbusy : ∀ b ∈ ps, b.getLsbD 0 = true) (hv : v.getLsbD 0 = false)
    (hlimit : ∀ l, s.pollLimit = some l → ps.length < l) :
    runSteps (1 + (bs.length + 6 + 4 * (ps.length + 1))) s = .next { s with
      agenda := [], chip := more
      trace := s.trace ++ ([.sel, .tx 0x06, .desel] ++ ([.sel] ++ bs.map .tx ++ [.desel]) ++ pollEvents (ps ++ [v]) ++
        [.done .ok none]) } := by
  have hsent := runSteps_sent hrest hm hl ha hfault hscript
  have hpoll : runSteps (4 * (ps.length + 1)) (sent r bs s) = .next (pollReady ps v more (sent r bs s)) := by
    refine runSteps_ready (atPoll_sent hrest hl hscript) rfl hchip hbusy hv fun l hl => ?_
    have hcount : (sent r bs s).pollCount = 0 := hrest.pollCount
    rw [hcount, Nat.zero_add]
    exact hlimit l hl
  have hret : (pollReady ps v more (sent r bs s)).script[(pollReady ps v more (sent r bs s)).ip]? = some .ret := by
    change (scriptOf r)[bs.length + 5 + 1]? = some .ret
    rw [hscript]
    simp [txBracket]
  have hid : responseId (pollReady ps v more (sent r bs s)) = none := if_neg hop
  have hsteps : 1 + (bs.length + 6 + 4 * (ps.length + 1)) = 1 + (bs.length + 5) + (4 * (ps.length + 1) + 1) := by omega
  rw [hsteps, runSteps_add _ hsent, runSteps_add 1 hpoll, runSteps_one (step_ret rfl rfl hret), hid]
  refine congrArg Host.Outcome.next ((cleared_sent hrest hm r bs _ _).trans ?_)
  simp [emit, pollReady, sent]

/-- Settles O56: the second bracket transmits 0xC7. -/
theorem chipEraseRequestRuns : Obligations.ChipEraseRequestRuns := by
  intro s f bs v more hrest hm hl ha
  exact runSteps_mutating (bs := [0xC7]) hrest hm hl ha (by decide : (4 : OpField) ≠ 0) rfl rfl

/-- Settles O55: the second bracket transmits the opcode and the address as given. -/
theorem sectorEraseRequestRuns : Obligations.SectorEraseRequestRuns := by
  intro s f bs v more hrest hm hl ha
  exact runSteps_mutating (bs := 0x20 :: addrBytes f.addr) hrest hm hl ha (by decide : (3 : OpField) ≠ 0) rfl rfl

theorem scriptOf_pageProgram (f : Fields) : scriptOf (requestOf 2 f) = txBracket [0x06] ++
    txBracket (programBytes f.addr (payload f.src (programLength f))) ++ [.poll, .ret] := by
  rw [← pageProgramFrame_eq_txBracket]
  exact List.append_assoc (writeEnableFrame ++ _) [.poll] [.ret]

/-- Settles O54: the second bracket transmits the opcode, the address and the payload. -/
theorem pageProgramRequestRuns : Obligations.PageProgramRequestRuns := by
  intro s f bs v more hrest hm hl ha hsrc hchip hbusy hv hlimit
  have hpayload : (payload f.src (programLength f)).length = min f.len.toNat 256 := List.length_take_of_le hsrc
  have hrun := runSteps_mutating hrest hm hl ha (by decide : (2 : OpField) ≠ 0) (acceptanceFault_pageProgram hsrc)
    (scriptOf_pageProgram f) hchip hbusy hv hlimit
  rwa [programBytes_events, length_programBytes, hpayload] at hrun

end Sys2Proof.Machine

/-! ## Faults: acceptance branch by branch, the record beside a fault, FAULTED, and the hang of a busy chip

The order of the fault causes (R105, R107, R108), what a fault records (R106), the one way out of FAULTED (R109), and the
poll that never ends (R110). -/

namespace Sys2Proof.Machine
open Sys2Proof Sys2Proof.Claims

/-! ### Acceptance, branch by branch -/

/-- The order of the fault causes in IDLE (R108). -/
theorem acceptanceFault_eq (r : Request) : acceptanceFault r =
    if r.op = 5 ∨ r.op = 6 ∨ r.op = 7 then some .illegalOp
    else if r.op = 1 ∧ r.dstCap < r.len.toNat then some .dstTooSmall
    else if r.op = 2 ∧ r.src.length < min r.len.toNat 256 then some .srcTooShort
    else none := by
  obtain ⟨f, op⟩ := r
  rcases op_cases op with rfl | rfl | rfl | rfl | rfl | rfl | rfl | rfl
  · rfl
  · change (if f.dstCap < f.len.toNat then some FaultCode.dstTooSmall else none) = _
    simp
  · change (if f.src.length < min f.len.toNat 256 then some FaultCode.srcTooShort else none) = _
    simp
  · rfl
  · rfl
  · rfl
  · rfl
  · rfl

/-- Fault entry is R107's, but for the record beside the code (log 9). -/
theorem sansRecord_raiseFault (c : FaultCode) (r : Request) (s : State) :
    sansRecord s (raiseFault c r s) = faultEntry c s := by
  rw [raiseFault_fields]
  rfl

/-- Settles O29, mode by mode, and in IDLE cause by cause. -/
theorem acceptanceStep : Obligations.AcceptanceStep := by
  intro r s
  rw [exec_decodeRequest]
  cases hm : s.mode with
  | faulted => exact ⟨s, present_faulted hm, rfl⟩
  | run => exact ⟨_, present_run hm, sansRecord_raiseFault ..⟩
  | idle =>
    have hrefused (c : FaultCode) : ∃ t, present r (some c) (lengthOf r) (scriptOf r) s = .next t ∧
        sansRecord s t = faultEntry c s :=
      ⟨_, present_idle_illegal hm, sansRecord_raiseFault ..⟩
    simp only [reduceCtorEq, if_false, acceptanceFault_eq]
    split_ifs
    · exact hrefused .illegalOp
    · exact hrefused .dstTooSmall
    · exact hrefused .srcTooShort
    · exact ⟨_, present_idle_unchecked hm, rfl⟩

/-! ### What a fault records -/

/-- Fault entry records the presented request and, with a request in progress, its `ip` (R106). -/
theorem raiseFault_record (c : FaultCode) (r : Request) (s : State) :
    (raiseFault c r s).faultReq = some r ∧ (raiseFault c r s).faultIp = if s.mode = .run then some s.ip else none :=
  ⟨rfl, rfl⟩

/-- Settles O30: only fault entry, which is not taken in FAULTED and leads there, writes the record. -/
theorem faultsRecordTheRequest : Obligations.FaultsRecordTheRequest := by
  intro r s t hx
  rcases exec_decodeRequest_cases hx with ⟨hm, rfl⟩ | ⟨hm, c, rfl⟩ | ⟨hm, -, rfl⟩
  · exact ⟨absurd hm, fun _ => ⟨rfl, rfl⟩⟩
  · exact ⟨fun _ _ => raiseFault_record c r s, fun hno => absurd hno (not_or.2 ⟨hm, fun h => h rfl⟩)⟩
  · exact ⟨nofun, fun _ => ⟨rfl, rfl⟩⟩

/-! ### The way out of FAULTED -/

/-- Settles O37: of the effects a step can have, FAULTED leaves the reset and the moves of the environment. -/
theorem onlyResetLeavesFaulted : Obligations.OnlyResetLeavesFaulted := by
  intro s t hm hs
  rcases step_effect hs with ⟨c, r, more, hno, -⟩ | ⟨r, more, hidle, -⟩ | ⟨more, ha, rfl⟩ | ⟨more, tr, rfl⟩ |
    ⟨more, hrun, -⟩
  · exact absurd hm hno
  · cases hm.symm.trans hidle
  · exact .inl ⟨⟨more, ha⟩, rfl, by simp [resetInput]⟩
  · exact .inr rfl
  · cases hm.symm.trans hrun

/-! ### The poll that never ends -/

/-- Settles O58: the iterations of a busy chip, with no bound to reach. -/
theorem busyChipKeepsPolling : Obligations.BusyChipKeepsPolling := by
  intro s bs more ha hm hu hp hcs hl hlimit hchip hbusy
  have hrun := runSteps_busy ⟨hm, hu, hp, hcs, hl⟩ ha hchip hbusy (by simp [hlimit])
  have hpolling : pollState (pollingOn bs s) = .polling := if_pos ⟨hm, hu⟩
  have hleft : (pollingOn bs s).chip = more := by simp [pollingOn, hchip]
  exact ⟨pollingOn bs s, hrun, hpolling, rfl, rfl, hp, hcs, hleft, rfl, rfl⟩

end Sys2Proof.Machine

/-! ## Reset, power-on, and the completion of a request

The reset input and the values it leaves (R121, R122), and R132: a request in progress comes to its DONE under the liveness
premises, unless it is cut. -/

namespace Sys2Proof.Machine
open Sys2Proof Sys2Proof.Claims

/-! ### The reset input (R121, R122) -/

theorem step_reset {s : State} {more : List Turn} (ha : s.agenda = .reset :: more) :
    step s = .next (resetInput { s with agenda := more }) := by
  simp only [step, takeTurn, ha]

/-- The reset input as one record update. -/
theorem resetInput_fields (s : State) : resetInput s = { s with
    csN := true, mode := .idle, req := none, n := 0, script := [], ip := 0, idBuf := ⟨0, 0, 0⟩, st := 0
    pollPhase := .pCsa, pollCount := 0
    trace := s.trace ++ (if s.csN = true then [.reset] else [.desel, .reset]) } := by
  simp only [resetInput, clearRequest, emit, driveCs_eq]
  by_cases h : s.csN = true <;> simp [h]

/-- Settles O38: the reset move applies the reset input. -/
theorem resetInputEffect : Obligations.ResetInputEffect := fun _ _ ha =>
  ⟨_, step_reset ha, by rw [resetInput_fields]⟩

/-- Settles O39: the reset input writes none of these fields, and a move of the environment is one update. -/
theorem outsideWorldStays : Obligations.OutsideWorldStays := by
  refine ⟨fun s more ha => ⟨_, step_reset ha, ?_⟩, fun s more ha => ?_, fun s more ha => ?_⟩
  · simp [resetInput]
  · simp only [step, takeTurn, ha]
  · simp only [step, takeTurn, ha]

/-- Settles O40: the power-on state is the table's first column, and the reset input writes its second. -/
theorem resetValuesOfTheTable : Obligations.ResetValuesOfTheTable := by
  refine ⟨⟨rfl, rfl, rfl, rfl, rfl, rfl, rfl, rfl, rfl, rfl, rfl⟩, fun s => ?_⟩
  rw [resetInput_fields]
  exact ⟨rfl, rfl, rfl, rfl, rfl, rfl, rfl, rfl, rfl, rfl, rfl⟩

/-- Settles O42: the power-on state is at rest, with nothing on the wire. -/
theorem powerOnMeetsTheInvariant : Obligations.PowerOnMeetsTheInvariant :=
  ⟨engineInv_of_atRest rfl nofun rfl ⟨rfl, rfl, rfl, rfl, rfl, rfl, rfl, rfl, rfl⟩, rfl⟩

/-! ### A request in progress under the liveness premises (R132) -/

/-- A request in progress under the liveness premises; `ok` allows the results its DONE can have under its `POLL_LIMIT`. -/
structure LiveRun (ok : Result → Prop) (s : State) : Prop where
  inv : EngineInv s
  run : s.mode = .run
  transportLive : TransportLive s
  chipReady : s.pollLimit = none → ChipEventuallyReady s
  allows : ∀ r, r = .ok ∨ s.pollLimit ≠ none → ok r

/-- The coming step cuts the request in progress or completes it. -/
def EndComes (ok : Result → Prop) (s : State) : Prop := CutComes s ∨ DoneComes ok s

/-- The run stays in RUN until the request in progress is cut or completed. -/
abbrev ComesToEnd (ok : Result → Prop) : State → Prop := Until (fun t => t.mode = .run) (EndComes ok)

/-- The micro-ops from `ip` to the end of the script. -/
def microOpsLeft (s : State) : Nat := s.script.length - s.ip

/-- POLL goes on to its next phase, or after a busy answer to its next iteration. -/
structure PollGoesOn (s t : State) : Prop where
  polling : pollState s = .polling
  left : microOpsLeft t = microOpsLeft s
  limit : t.pollLimit = s.pollLimit
  phase : (t.pollCount = s.pollCount ∧ rank t.pollPhase < rank s.pollPhase) ∨
    (s.pollPhase = .pCsd ∧ t.pollCount = s.pollCount + 1 ∧ t.pollPhase = .pCsa ∧ busy s.st = true)

/-- The engine goes on from `s` to `t`: to the next index of the script, or inside its POLL. -/
def GoesOn (s t : State) : Prop := microOpsLeft t < microOpsLeft s ∨ PollGoesOn s t

/-- `t` is `s` but for the coming moves and the transport: no engine field, and no event, has changed. -/
def EngineStays (s t : State) : Prop := ∃ more tr, t = { s with agenda := more, transport := tr }

section
variable {ok : Result → Prop} {s t : State}

theorem LiveRun.next (h : LiveRun ok s) (hs : step s = .next t) (hm : t.mode = .run) (hl : t.pollLimit = s.pollLimit) :
    LiveRun ok t :=
  have hreach := reaches_step hs (reaches_refl t)
  { inv := everyStepKeepsTheInvariant s t h.inv hs
    run := hm
    transportLive := transportLive_reaches h.transportLive hreach
    chipReady := fun hn => chipEventuallyReady_reaches (h.chipReady (hl ▸ hn)) hreach
    allows := fun r hr => h.allows r (hl ▸ hr) }

theorem step_of_engineMoves (h : EngineMoves s) : ∃ more, step s = microStep { s with agenda := more } := by
  obtain ⟨hm, ha | ⟨more, ha⟩ | ⟨r, more, ha⟩⟩ := h
  · exact ⟨s.agenda, by simp only [step, takeTurn, ha]; exact (engineTurn_run hm).trans (by rw [← ha])⟩
  · exact ⟨more, by simp only [step, takeTurn, ha]; exact engineTurn_run hm⟩
  · exact ⟨s.agenda, step_await ha hm⟩

theorem EngineStays.microOpsLeft_eq (h : EngineStays s t) : microOpsLeft t = microOpsLeft s := by
  obtain ⟨more, tr, rfl⟩ := h
  rfl

theorem EngineStays.atExchange_iff (h : EngineStays s t) : AtExchange t ↔ AtExchange s := by
  obtain ⟨more, tr, rfl⟩ := h
  rfl

/-- Where the engine goes on from a state it has stayed in, it goes on from the first one. -/
theorem EngineStays.goesOn {u : State} (h : EngineStays s t) (hgo : GoesOn t u) : GoesOn s u := by
  obtain ⟨more, tr, rfl⟩ := h
  exact hgo.imp_right fun hpoll => ⟨hpoll.polling, hpoll.left, hpoll.limit, hpoll.phase⟩

/-- The engine's step completes the request, goes on, or waits at an exchange the transport does not complete (R82). -/
theorem LiveRun.engine_step (h : LiveRun ok s) {more : List Turn} (he : step s = microStep { s with agenda := more }) :
    EndComes ok s ∨ ∃ t, step s = .next t ∧ LiveRun ok t ∧
      (GoesOn s t ∨ (EngineStays s t ∧ s.transport = .stalled ∧ AtExchange s)) := by
  obtain ⟨t, hs⟩ := noStepStopsUnderTheInvariant s h.inv
  obtain ⟨hl, hclass⟩ := micro_class (he.symm.trans hs)
  rcases hclass with ⟨hm, hscript, hip⟩ | ⟨hu, hm, hscript, hip, hphase⟩ | ⟨hm, r, id, hdone, hr⟩ | ⟨rfl, hstall, hx⟩
  · refine .inr ⟨t, hs, h.next hs (hm.trans h.run) hl, .inl (.inl ?_)⟩
    have hin := (h.inv.run h.run).inScript
    simp only [microOpsLeft, hscript, hip]
    omega
  · exact .inr ⟨t, hs, h.next hs (hm.trans h.run) hl, .inl (.inr
      { polling := if_pos ⟨h.run, hu⟩
        left := by simp only [microOpsLeft, hscript, hip]
        limit := hl
        phase := hphase })⟩
  · exact .inl (.inr ⟨h.run, t, r, id, hs, hm, hdone, h.allows r hr⟩)
  · exact .inr ⟨_, hs, h.next hs h.run rfl, .inr ⟨⟨more, s.transport, rfl⟩, hstall, hx⟩⟩

/-- One step of a request in progress: to come to its end, it is enough to come there from where the engine goes on, and from
where it stays, because the environment moved or because it waits at an exchange. -/
theorem LiveRun.comesToEnd_of_step (h : LiveRun ok s)
    (goesOn : ∀ t, step s = .next t → LiveRun ok t → GoesOn s t → ComesToEnd ok t)
    (stays : ∀ t, step s = .next t → LiveRun ok t → EngineStays s t →
      t.agenda.length < s.agenda.length ∨ AtExchange s → ComesToEnd ok t) : ComesToEnd ok s := by
  rcases run_moves h.run with hcut | ⟨more, -, he⟩ | ⟨more, tr, hs, hshorter⟩
  · exact .now (.inl hcut)
  · rcases h.engine_step he with hend | ⟨t, hs, ht, hgo | ⟨hstays, -, hx⟩⟩
    · exact .now hend
    · exact .later h.run hs (goesOn t hs ht hgo)
    · exact .later h.run hs (stays t hs ht hstays (.inr hx))
  · exact .later h.run hs (stays _ hs (h.next hs h.run rfl) ⟨more, tr, rfl⟩ (.inl hshorter))

/-- At an exchange `TransportLive` brings the step that completes it (R82). -/
theorem LiveRun.comesToEnd_of_exchange (h : LiveRun ok s) (hx : AtExchange s)
    (goesOn : ∀ t, LiveRun ok t → GoesOn s t → ComesToEnd ok t) : ComesToEnd ok s := by
  have hcompletes := h.transportLive s (reaches_refl s) h.run hx
  induction hcompletes with
  | now hp =>
    rcases hp with hcut | ⟨hmoves, hlive⟩
    · exact .now (.inl hcut)
    · obtain ⟨more, he⟩ := step_of_engineMoves hmoves
      rcases h.engine_step he with hend | ⟨t, hs, ht, hgo | ⟨-, hstall, -⟩⟩
      · exact .now hend
      · exact .later h.run hs (goesOn t ht hgo)
      · cases hlive.symm.trans hstall
  | later hq hs ht ih =>
    refine h.comesToEnd_of_step (fun t _ => goesOn t) fun t hs' hlive hstays _ => ?_
    cases hs.symm.trans hs'
    exact ih hlive (hstays.atExchange_iff.2 hx) fun u hu hgo => goesOn u hu (hstays.goesOn hgo)

/-- Elsewhere only finitely many moves of the environment can come before the engine's step. -/
theorem LiveRun.comesToEnd_of_no_exchange (h : LiveRun ok s) (hx : ¬ AtExchange s)
    (goesOn : ∀ t, LiveRun ok t → GoesOn s t → ComesToEnd ok t) : ComesToEnd ok s := by
  induction hk : s.agenda.length using Nat.strong_induction_on generalizing s with
  | _ k ih =>
    refine h.comesToEnd_of_step (fun t _ => goesOn t) fun t _ hlive hstays hwhy => ?_
    exact ih _ (hk ▸ hwhy.resolve_right hx) hlive (hx ∘ hstays.atExchange_iff.1)
      (fun u hu hgo => goesOn u hu (hstays.goesOn hgo)) rfl

/-- Under `TransportLive` the engine goes on, so its request comes to its end if it does so from there. -/
theorem LiveRun.comesToEnd_of_goesOn (h : LiveRun ok s) (goesOn : ∀ t, LiveRun ok t → GoesOn s t → ComesToEnd ok t) :
    ComesToEnd ok s := by
  by_cases hx : AtExchange s
  · exact h.comesToEnd_of_exchange hx goesOn
  · exact h.comesToEnd_of_no_exchange hx goesOn

/-- With the answer that is not busy received, the iteration's end leaves POLL (R87). -/
theorem not_pollGoesOn_of_ready (hp : s.pollPhase = .pCsd) (hready : busy s.st = false) : ¬ PollGoesOn s t := by
  intro h
  rcases h.phase with ⟨-, hlt⟩ | ⟨-, -, -, hbusy⟩
  · simp [hp, rank] at hlt
  · cases hready.symm.trans hbusy

/-- `ChipEventuallyReady` brings a POLL to the answer that is not busy, and that leaves it (R86, R87). -/
theorem LiveRun.comesToEnd_of_chipReady (h : LiveRun ok s)
    (hready : Until (fun u => pollState u = .polling)
      (fun u => CutComes u ∨ (pollState u = .polling ∧ u.pollPhase = .pCsd ∧ busy u.st = false)) s)
    (further : ∀ t, LiveRun ok t → microOpsLeft t < microOpsLeft s → ComesToEnd ok t) : ComesToEnd ok s := by
  induction hready with
  | now hp =>
    rcases hp with hcut | ⟨-, hphase, hst⟩
    · exact .now (.inl hcut)
    · exact h.comesToEnd_of_goesOn fun t hlive hgo => further t hlive (hgo.resolve_right (not_pollGoesOn_of_ready hphase hst))
  | @later s t hq hs ht ih =>
    have same (hlive : LiveRun ok t) (hleft : microOpsLeft t = microOpsLeft s) : ComesToEnd ok t :=
      ih hlive fun u hu hlt => further u hu (hleft ▸ hlt)
    refine h.comesToEnd_of_step (fun u hu hlive hgo => ?_) fun u hu hlive hstays _ => ?_ <;> cases hs.symm.trans hu
    · exact hgo.elim (further t hlive) fun hpoll => same hlive hpoll.left
    · exact same hlive (hstays.microOpsLeft_eq)

/-- With `POLL_LIMIT` unbounded, the chip's readiness takes the engine past a POLL. -/
theorem LiveRun.comesToEnd_of_unbounded (h : LiveRun ok s) (hl : s.pollLimit = none)
    (further : ∀ t, LiveRun ok t → microOpsLeft t < microOpsLeft s → ComesToEnd ok t) : ComesToEnd ok s := by
  by_cases hp : pollState s = .polling
  · exact h.comesToEnd_of_chipReady (h.chipReady hl s (reaches_refl s) hp) further
  · exact h.comesToEnd_of_goesOn fun t hlive hgo => further t hlive (hgo.resolve_right fun hpoll => hp hpoll.polling)

/-- The phases a POLL with the bound `l` can still take. -/
def pollPhasesLeft (l : Nat) (s : State) : Nat := 4 * (l - s.pollCount) + rank s.pollPhase

theorem pollPhasesLeft_lt {l : Nat} (hcount : s.pollCount < l) (h : PollGoesOn s t) :
    pollPhasesLeft l t < pollPhasesLeft l s := by
  unfold pollPhasesLeft
  rcases h.phase with ⟨hc, hlt⟩ | ⟨hp, hc, hp', -⟩
  · rw [hc]; omega
  · rw [hc, hp, hp']; simp only [rank]; omega

/-- With a finite `POLL_LIMIT`, the bound takes the engine past a POLL or ends the request (R89). -/
theorem LiveRun.comesToEnd_of_bounded {l : Nat} (h : LiveRun ok s) (hl : s.pollLimit = some l)
    (further : ∀ t, LiveRun ok t → microOpsLeft t < microOpsLeft s → ComesToEnd ok t) : ComesToEnd ok s := by
  induction hk : pollPhasesLeft l s using Nat.strong_induction_on generalizing s with
  | _ k ih =>
    refine h.comesToEnd_of_goesOn fun t hlive hgo => hgo.elim (further t hlive) fun hpoll => ?_
    have hlt := pollPhasesLeft_lt ((h.inv.run h.run).pollBelowLimit l hl) hpoll
    exact ih _ (hk ▸ hlt) hlive (hpoll.limit.trans hl) (fun u hu hu' => further u hu (hpoll.left ▸ hu')) rfl

/-- Index after index, the request in progress comes to its end. -/
theorem LiveRun.comesToEnd (h : LiveRun ok s) : ComesToEnd ok s := by
  induction hk : microOpsLeft s using Nat.strong_induction_on generalizing s with
  | _ k ih =>
    have further : ∀ t, LiveRun ok t → microOpsLeft t < microOpsLeft s → ComesToEnd ok t :=
      fun t hlive hlt => ih _ (hk ▸ hlt) hlive rfl
    cases hl : s.pollLimit with
    | none => exact h.comesToEnd_of_unbounded hl further
    | some l => exact h.comesToEnd_of_bounded hl further

end

/-- Settles O60: in both variants the request in progress is a live run, which comes to its end. -/
theorem acceptedRequestsComplete : Obligations.AcceptedRequestsComplete := by
  refine fun s hinv hm hlive => ⟨fun hl hchip => ?_, fun hl => ?_⟩
  · exact LiveRun.comesToEnd ⟨hinv, hm, hlive, fun _ => hchip, fun r hr => hr.resolve_right (not_not_intro hl)⟩
  · exact LiveRun.comesToEnd ⟨hinv, hm, hlive, fun hn => absurd hn hl, fun _ _ => trivial⟩

end Sys2Proof.Machine
